-- ==== Sys2Proof/Word.lean ====
section
/-! DEFINITION. The word and byte types of the QuickerSHA1 CORE block (00_scope.md section 4). -/

namespace Sys2Proof

/-- A word is 32 bits (00_scope.md section 4). -/
abbrev Word := BitVec 32

/-- A byte is 8 bits (00_scope.md section 4). -/
abbrev Byte := BitVec 8

end Sys2Proof
end

