-- ==== Sys2Proof/Syntax.lean ====
section
/-! DEFINITION. The commands of opcode_table.json (30_encoding.md R55), and what a host can send to the block
(30_encoding.md R45, 70_reset_and_hazards.md R113). -/

namespace Sys2Proof

/-- The three commands that have a row in the opcode table. BUFP is CMD[2] (R48); LEN is the second
command-channel beat of an INPUT (R49). An illegal command word has no row; the decoder rejects it by name. -/
inductive Instr where
  /-- RESET (R58). BUFP is carried by the word and ignored (R48). -/
  | reset (bufp : Bool)
  /-- INPUT (R59). -/
  | input (bufp : Bool) (len : Word)
  /-- RESULT (R76). -/
  | result (bufp : Bool)
deriving DecidableEq, Repr

/-- The beats a host supplies for one command (R45 steps 1 to 3): what it puts on the command channel (a command
word, then perhaps a LEN word) and on the data-in channel (the data phase, DataIn[0] first). -/
structure Transaction where
  cmdBeats : List Word
  data     : List Byte
deriving DecidableEq, Repr

/-- What a host may do to the block (R113). -/
inductive HostMove where
  /-- It issues one command. -/
  | transaction (t : Transaction)
  /-- It asserts rst_n between two commands (R105). -/
  | powerOnReset
  /-- It asserts rst_n while a command is in progress (R105). `sent` holds the beats that the block had taken by
  then, and `digestBeats` is how many digest bytes had transferred. -/
  | powerOnResetDuring (sent : Transaction) (digestBeats : Nat)
deriving DecidableEq, Repr

end Sys2Proof
end

