-- ==== Sys2Proof/Decode.lean ====
section
/-! DEFINITION. The decoder (30_encoding.md R46, R51, R52), total on any list of command-channel beats, the encoder
(R55), and the numbering of an instruction's bits that the opcode table uses. -/

namespace Sys2Proof

/-- OP, CMD[1:0] (R46). -/
def opField (cmd : Word) : BitVec 2 := cmd.extractLsb' 0 2

/-- BUFP, CMD[2] (R46). -/
def bufpField (cmd : Word) : Bool := cmd.getLsbD 2

/-- RSVD, CMD[31:3] (R46). -/
def rsvdField (cmd : Word) : BitVec 29 := cmd.extractLsb' 3 29

/-- What a command word decodes to (R51). -/
inductive CommandClass where
  | reset (bufp : Bool)
  | input (bufp : Bool)
  | result (bufp : Bool)
  | illegal
deriving DecidableEq, Repr

/-- The decoder of one command word, in the order of R51. It reads no context state. -/
def classify (cmd : Word) : CommandClass :=
  if rsvdField cmd ≠ 0#29 ∨ opField cmd = 0b11#2 then .illegal
  else if opField cmd = 0b00#2 then .reset (bufpField cmd)
  else if opField cmd = 0b01#2 then .input (bufpField cmd)
  else .result (bufpField cmd)

/-- Why a list of command-channel beats is no instruction. -/
inductive Reject where
  /-- There is no command word. -/
  | noCommandWord
  /-- OP = 0b01 and the LEN word is missing (R45 step 2). -/
  | missingLenWord
  /-- There is a beat that R45 does not name. -/
  | surplusCommandBeat
  /-- An illegal command word, whose framing is complete (R52). `dataBeats` is the length of its data phase. -/
  | illegalCommand (dataBeats : Nat)
deriving DecidableEq, Repr

/-- The decoder's answer. -/
inductive Decoded where
  | instr (i : Instr)
  | reject (r : Reject)
deriving DecidableEq, Repr

/-- The length of the data phase that CMD[2] and LEN announce when OP = 0b01 (R50, R52). -/
def announcedData (cmd len : Word) : Nat := if bufpField cmd then len.toNat else 0

/-- The decoder of the command-channel beats of one transaction. The LEN word is consumed when OP = 0b01, for a legal
and an illegal word alike (R45, R52). -/
def decode : List Word → Decoded
  | [] => .reject .noCommandWord
  | [cmd] =>
    if opField cmd = 0b01#2 then .reject .missingLenWord
    else match classify cmd with
      | .reset bufp => .instr (.reset bufp)
      | .result bufp => .instr (.result bufp)
      | .input _ => .reject .missingLenWord
      | .illegal => .reject (.illegalCommand 0)
  | [cmd, len] =>
    if opField cmd = 0b01#2 then
      match classify cmd with
      | .input bufp => .instr (.input bufp len)
      | _ => .reject (.illegalCommand (announcedData cmd len))
    else .reject .surplusCommandBeat
  | _ :: _ :: _ :: _ => .reject .surplusCommandBeat

/-- A command word: RSVD = 0, then BUFP, then OP (R46, R55). -/
def commandWord (op : BitVec 2) (bufp : Bool) : Word := (0#29 ++ BitVec.ofBool bufp) ++ op

/-- The command-channel beats of an instruction (R45, R47, R55). -/
def encode : Instr → List Word
  | .reset bufp => [commandWord 0b00#2 bufp]
  | .input bufp len => [commandWord 0b01#2 bufp, len]
  | .result bufp => [commandWord 0b10#2 bufp]

/-- The beats of an instruction whose bits the opcode table numbers as `w`, of which it gives `nbits`: the command word
is bits 31..0 and the LEN word, where OP = 0b01 calls for one, is bits 63..32. A bit above `nbits` is 0 (log 12). -/
def tableWords (nbits w : Nat) : List Word :=
  let bits := w % 2 ^ nbits
  let cmd := BitVec.ofNat 32 bits
  if opField cmd = 0b01#2 then [cmd, BitVec.ofNat 32 (bits / 2 ^ 32)] else [cmd]

/-- The instruction the decoder reads from the bits `w`, none where it refuses. -/
def decodeTableWord (nbits w : Nat) : Option Instr :=
  match decode (tableWords nbits w) with
  | .instr i => some i
  | .reject _ => none

/-- The transaction of the bits `w`: its beats, and a data phase of as many zero bytes as it announces (log 12). -/
def tableTransaction (nbits w : Nat) : Transaction :=
  match tableWords nbits w with
  | [cmd, len] => ⟨[cmd, len], List.replicate (announcedData cmd len) 0#8⟩
  | beats => ⟨beats, []⟩

end Sys2Proof
end

