-- ==== Sys2Proof/Config.lean ====
section
/-! DEFINITION. What an implementation fixes: the parameters and fixed sizes of 00_scope.md section 3 and the port
list of 30_encoding.md R43. The spec leaves no value open (93_implementation_defined.md), so there is no free
value here. -/

namespace Sys2Proof

/-- LEN_WIDTH, the width of the bit-length accumulator: "Its legal values are 32 and 64" (R5). -/
inductive LenWidth where
  | w32
  | w64
deriving DecidableEq, Repr

namespace Config

/-- The identity string (R1, decision D1). -/
def identity : String := "QuickerSHA1-CORE"

/-- "its default is 32" (R5, decision D8). -/
def defaultLenWidth : LenWidth := .w32

/-- The fixed sizes of R7. -/
def stateWords : Nat := 5
def blockBytes : Nat := 64
def scheduleWords : Nat := 80
def stages : Nat := 4
def roundsPerStage : Nat := 20
def digestBytes : Nat := 20

/-- The direction of a port, seen from the block. -/
inductive Direction where
  | input
  | output
deriving DecidableEq, Repr

/-- One row of the port list. -/
structure Port where
  name      : String
  direction : Direction
  width     : Nat
deriving DecidableEq, Repr

/-- The ports of one instance (R43). There is no interrupt output (R97). -/
def ports : List Port :=
  [⟨"clk", .input, 1⟩, ⟨"rst_n", .input, 1⟩,
   ⟨"cmd_valid", .input, 1⟩, ⟨"cmd_ready", .output, 1⟩, ⟨"cmd_data", .input, 32⟩,
   ⟨"din_valid", .input, 1⟩, ⟨"din_ready", .output, 1⟩, ⟨"din_data", .input, 8⟩] ++
  [⟨"dout_valid", .output, 1⟩, ⟨"dout_ready", .input, 1⟩, ⟨"dout_data", .output, 8⟩,
   ⟨"rsp_valid", .output, 1⟩, ⟨"rsp_ready", .input, 1⟩, ⟨"rsp_status", .output, 3⟩]

end Config

/-- LEN_WIDTH as a number of bits (R5). -/
def LenWidth.bits : LenWidth → Nat
  | .w32 => 32
  | .w64 => 64

/-- The supported message ceiling in bytes: "below 2^29 bytes with LEN_WIDTH = 32, and below 2^61 bytes with
LEN_WIDTH = 64" (R5, R111). -/
def LenWidth.ceiling : LenWidth → Nat
  | .w32 => 2 ^ 29
  | .w64 => 2 ^ 61

end Sys2Proof
end

