-- ==== Sys2Proof/Machine/State.lean ====
section
/-! DEFINITION. The state of one CORE instance as plain data: the context register file (10_state.md), the padding FSM
state (43_finalization.md R77), and the host's side of the ports (30_encoding.md R43, 70_reset_and_hazards.md R113). -/

namespace Sys2Proof.Machine

/-- CORR, "A model represents CORR as a three-valued type" (R18). -/
inductive Corr where
  | none
  | stateError
  /-- Reserved; "No rule of this hardware writes it" (R18). -/
  | corrupted
deriving DecidableEq, Repr

/-- The five status values (R89). -/
inductive Status where
  | ok
  | nullArgument
  | stateError
  | corrupted
  | illegalCommand
deriving DecidableEq, Repr

/-- BITLEN, LEN_WIDTH bits wide; the constructor is the instance's LEN_WIDTH (R5, R16; log 6). -/
inductive BitLen where
  | w32 (v : BitVec 32)
  | w64 (v : BitVec 64)
deriving DecidableEq, Repr

/-- The LEN_WIDTH an accumulator has. -/
def BitLen.lenWidth : BitLen → LenWidth
  | .w32 _ => .w32
  | .w64 _ => .w64

/-- The accumulator of width `w` at 0. -/
def BitLen.zero : LenWidth → BitLen
  | .w32 => .w32 0#32
  | .w64 => .w64 0#64

/-- The context register file: the six fields of 10_state.md, the whole persistent state of an instance. -/
structure Context where
  /-- H[0..4] (R11). -/
  h      : Vector Word 5
  /-- BUF[0..63] (R13). -/
  buf    : Vector Byte 64
  /-- IDX, 6 bits (R15). -/
  idx    : Fin 64
  /-- BITLEN (R16). -/
  bitlen : BitLen
  /-- FIN (R17). -/
  fin    : Bool
  /-- CORR (R18). -/
  corr   : Corr
deriving DecidableEq, Repr

/-- The states of the padding and finalization FSM (R77). -/
inductive FsmState where
  | idle
  | mark
  | fillTail
  | compExtra
  | fillLen
  | len
  | compFinal
  | clear
  | out
deriving DecidableEq, Repr

/-- A beat that has transferred on one of the four channels (R43, R44). -/
inductive Beat where
  /-- Command channel: a command word or a LEN word. -/
  | cmd (w : Word)
  /-- Data-in channel: one message byte. -/
  | din (b : Byte)
  /-- Data-out channel: one digest byte. -/
  | dout (b : Byte)
  /-- Response channel: one status. -/
  | rsp (st : Status)
deriving DecidableEq, Repr

/-- The state of one instance, together with the host's side of its ports. -/
structure State where
  /-- The context register file. -/
  ctx   : Context
  /-- The state of the padding FSM, F_IDLE between commands (R77, R104; log 7). -/
  fsm   : FsmState
  /-- The moves the host has still to make, in the order they arrive (R36; log 1). -/
  port  : List HostMove
  /-- The data-in beats of the transaction being performed (R50; log 1). -/
  din   : List Byte
  /-- Every beat transferred so far, oldest first (log 3). -/
  trace : List Beat
deriving DecidableEq, Repr

/-- The reasons a step can fault: there are none. "The block has no trap mechanism" (R93; log 17). Safe. -/
inductive Fault where
deriving DecidableEq, Repr

/-- The reasons a step can be refused. But for the first, each names a way for a transaction to be malformed:
"A model refuses it; it never gives it a meaning" (R50; log 4). All are safe: the machine stops where the hardware waits. -/
inductive Refusal where
  /-- An arm of `exec` that has no meaning yet. No arm raises it. -/
  | notModelled (mnemonic : String)
  /-- Raised by `runTransaction`: there is no command-word beat. -/
  | noCommandWord
  /-- Raised by `runTransaction`: OP = 0b01 and there is no LEN beat (R45 step 2, R108). -/
  | missingLenWord
  /-- Raised by `runTransaction`: a command-channel beat that R45 does not name. -/
  | surplusCommandBeat
  /-- Raised by `execInput` and `runTransaction`: the data phase does not hold exactly the bytes announced (R50). -/
  | dataPhaseLength
  /-- Raised by `powerOnDuring`: the beats said to have transferred before rst_n are not the start of any
  transaction, or are more than the block had to give (R105; log 5). -/
  | notInProgress
deriving DecidableEq, Repr

/-- The initial values of H[0..4] (R12). -/
def initialHash : Vector Word 5 := #v[0x67452301, 0xEFCDAB89, 0x98BADCFE, 0x10325476, 0xC3D2E1F0]

/-- The context that RESET and the power-on reset leave (R58, R106), for an instance of width `w`. -/
def Context.init (w : LenWidth) : Context where
  h      := initialHash
  buf    := Vector.replicate 64 0#8
  idx    := 0
  bitlen := .zero w
  fin    := false
  corr   := .none

/-- The instance of width `w` right after power-on reset (R105, R106). The ports are the model's own (log 15). -/
def State.resetOf (w : LenWidth) : State where
  ctx   := .init w
  fsm   := .idle
  port  := []
  din   := []
  trace := []

/-- The machine right after reset, at the default LEN_WIDTH (R5, R105, R106). -/
def State.reset : State := .resetOf Config.defaultLenWidth

end Sys2Proof.Machine
end

