-- ==== Sys2Proof/Machine/Operands.lean ====
section
/-! DEFINITION. Byte order and the operand forms: words from bytes and bytes from words (00_scope.md R10 and section 4,
20_memory.md R29), the bit-length accumulator (41_input.md R62, 43_finalization.md R83), and byte writes to BUF. -/

namespace Sys2Proof.Machine

/-- BE32(b0, b1, b2, b3), with `b0` the most significant byte (R10). -/
def be32 (b0 b1 b2 b3 : Byte) : Word := b0 ++ b1 ++ b2 ++ b3

/-- BYTES32(w), most significant byte first (00_scope.md section 4). -/
def bytes32 (w : Word) : List Byte :=
  [w.extractLsb' 24 8, w.extractLsb' 16 8, w.extractLsb' 8 8, w.extractLsb' 0 8]

/-- BYTES64(v), most significant byte first (00_scope.md section 4). -/
def bytes64 (v : BitVec 64) : List Byte :=
  [v.extractLsb' 56 8, v.extractLsb' 48 8, v.extractLsb' 40 8, v.extractLsb' 32 8,
   v.extractLsb' 24 8, v.extractLsb' 16 8, v.extractLsb' 8 8, v.extractLsb' 0 8]

/-- The 20 digest bytes of H[0..4] (R87). -/
def digest (h : Vector Word 5) : List Byte := h.toList.flatMap bytes32

/-- BITLEN as a number. -/
def BitLen.toNat : BitLen → Nat
  | .w32 v => v.toNat
  | .w64 v => v.toNat

/-- "Each absorbed byte adds 8", modulo 2^LEN_WIDTH and with no carry kept (R62). -/
def BitLen.add8 : BitLen → BitLen
  | .w32 v => .w32 (v + 8)
  | .w64 v => .w64 (v + 8)

/-- The accumulator set to 0, at the width it has. -/
def BitLen.clear (b : BitLen) : BitLen := .zero b.lenWidth

/-- zext_64(BITLEN), the 64-bit length field (R83). -/
def BitLen.toField : BitLen → BitVec 64
  | .w32 v => v.setWidth 64
  | .w64 v => v

/-- Writes `bs` to BUF from offset `at_` on, one byte at a time. -/
def writeBytes (buf : Vector Byte 64) (at_ : Nat) : List Byte → Vector Byte 64
  | [] => buf
  | b :: bs => writeBytes (buf.setIfInBounds at_ b) (at_ + 1) bs

/-- Writes 0x00 to BUF[lo..hi-1] (R80, R82). -/
def zeroBytes (buf : Vector Byte 64) (lo hi : Nat) : Vector Byte 64 :=
  writeBytes buf lo (List.replicate (hi - lo) 0#8)

end Sys2Proof.Machine
end

