-- ==== Sys2Proof/Machine/Compress.lean ====
section
/-! DEFINITION. COMPRESS, the block compression function (42_compression.md). It is pure: "It reads nothing but its
arguments and writes nothing but its result" (R64). -/

namespace Sys2Proof.Machine

/-- ROTL(n, x) (R9). The block uses n = 1, 5 and 30. -/
def rotl (n : Nat) (x : Word) : Word := (x <<< n) ||| (x >>> (32 - n))

/-- Stage 1: "(B & C) | (~B & D)" (R67). -/
def choose (b c d : Word) : Word := (b &&& c) ||| (~~~b &&& d)

/-- Stages 2 and 4: "B ^ C ^ D" (R68). -/
def parity (b c d : Word) : Word := b ^^^ c ^^^ d

/-- Stage 3: "(B & C) | (B & D) | (C & D)" (R69). -/
def majority (b c d : Word) : Word := (b &&& c) ||| (b &&& d) ||| (c &&& d)

/-- f(t, B, C, D), by stage (R70). -/
def roundFunction (t : Nat) (b c d : Word) : Word :=
  if t < 20 then choose b c d
  else if t < 40 then parity b c d
  else if t < 60 then majority b c d
  else parity b c d

/-- K(t), by stage (R70). -/
def roundConstant (t : Nat) : Word :=
  if t < 20 then 0x5A827999
  else if t < 40 then 0x6ED9EBA1
  else if t < 60 then 0x8F1BBCDC
  else 0xCA62C1D6

/-- W[t] for t = 0..15: the block as 16 big-endian words (R65). -/
def blockWord (blk : Vector Byte 64) (t : Fin 16) : Word :=
  be32 blk[4 * t.val] blk[4 * t.val + 1] blk[4 * t.val + 2] blk[4 * t.val + 3]

/-- The next word of a schedule held newest word first, so that W[t-3], W[t-8], W[t-14] and W[t-16] are its words 2, 7,
13 and 15 (R66). -/
def nextWord (newestFirst : List Word) : Word :=
  rotl 1 (newestFirst.getD 2 0#32 ^^^ newestFirst.getD 7 0#32 ^^^ newestFirst.getD 13 0#32 ^^^ newestFirst.getD 15 0#32)

/-- Adds `n` words to a schedule held newest word first. -/
def extendSchedule : Nat → List Word → List Word
  | 0, ws => ws
  | n + 1, ws => extendSchedule n (nextWord ws :: ws)

/-- W[0..79] (R65, R66). -/
def schedule (blk : Vector Byte 64) : List Word :=
  (extendSchedule 64 ((List.finRange 16).map (blockWord blk)).reverse).reverse

/-- The working variables (R71). -/
structure Vars where
  a : Word
  b : Word
  c : Word
  d : Word
  e : Word
deriving DecidableEq, Repr

/-- The working variables loaded from the input state (R71). -/
def Vars.load (h : Vector Word 5) : Vars := ⟨h[0], h[1], h[2], h[3], h[4]⟩

/-- Round t (R72). Every right-hand side is read before any variable is written. -/
def roundStep (t : Nat) (w : Word) (v : Vars) : Vars where
  a := rotl 5 v.a + v.e + w + roundConstant t + roundFunction t v.b v.c v.d
  b := v.a
  c := rotl 30 v.b
  d := v.c
  e := v.d

/-- The rounds from t on, one for each schedule word (R72). -/
def rounds : Nat → List Word → Vars → Vars
  | _, [], v => v
  | t, w :: ws, v => rounds (t + 1) ws (roundStep t w v)

/-- The feed-forward (R73). -/
def feedForward (h : Vector Word 5) (v : Vars) : Vector Word 5 :=
  #v[h[0] + v.a, h[1] + v.b, h[2] + v.c, h[3] + v.d, h[4] + v.e]

/-- compress(h, blk) (R64). -/
def compress (h : Vector Word 5) (blk : Vector Byte 64) : Vector Word 5 :=
  feedForward h (rounds 0 (schedule blk) (.load h))

/-- BLOCK_DONE: compresses the full buffer into H and empties the index; BUF keeps its bytes (R61, R14). -/
def Context.blockDone (c : Context) : Context := { c with h := compress c.h c.buf, idx := 0 }

end Sys2Proof.Machine
end

