-- ==== Sys2Proof/Machine/Flags.lean ====
section
/-! DEFINITION. The flags FIN and CORR and the status codes (10_state.md R17 to R19, 60_exceptions.md R89, R91). -/

namespace Sys2Proof.Machine

/-- The 2-bit encoding of CORR (R18). -/
def Corr.bits : Corr → BitVec 2
  | .none => 0b00
  | .stateError => 0b10
  | .corrupted => 0b11

/-- The 3-bit code on rsp_status (R89). -/
def Status.code : Status → BitVec 3
  | .ok => 0b000
  | .nullArgument => 0b001
  | .stateError => 0b010
  | .corrupted => 0b011
  | .illegalCommand => 0b100

/-- The status a sticky CORR makes a command return: the stored kind (R91), and no status when CORR = NONE. -/
def Corr.stored : Corr → Option Status
  | .none => Option.none
  | .stateError => some .stateError
  | .corrupted => some .corrupted

/-- CORR <- STATE_ERROR (R59 check 3). -/
def Context.storeStateError (c : Context) : Context := { c with corr := .stateError }

end Sys2Proof.Machine
end

