-- ==== Sys2Proof/Machine/Ops.lean ====
section
/-! DEFINITION. The operations over the ports and the context that the commands share. `State.complete` is the block's
only form of exception: "An error is a status code plus any state change the rule names" (00_scope.md section 4,
60_exceptions.md R93). Nothing is saved and nothing is returned from (R93, R95). -/

namespace Sys2Proof.Machine

/-- complete(S), which is also raise E: the status beat, the last beat of the transaction (R45 step 5, R89), after
which the FSM is in F_IDLE ("Entered at the end of every command", R77). -/
def State.complete (st : Status) (s : State) : State :=
  { s with fsm := .idle, trace := s.trace ++ [.rsp st] }

/-- The block takes the command-channel beats of a transaction (R45 steps 1 and 2), and its data phase is offered. -/
def State.receive (t : Transaction) (s : State) : State :=
  { s with din := t.data, trace := s.trace ++ t.cmdBeats.map .cmd }

/-- The data phase transfers, whatever becomes of its bytes (R45 step 3, R28). -/
def State.takeDataPhase (s : State) : State :=
  { s with din := [], trace := s.trace ++ s.din.map .din }

/-- Emit(b0, ..., b19) (R87): the digest on the data-out channel. "Emitting changes no context field". -/
def State.emitDigest (s : State) : State :=
  { s with trace := s.trace ++ (digest s.ctx.h).map .dout }

/-- Writes the context. -/
def State.setCtx (c : Context) (s : State) : State := { s with ctx := c }

/-- Writes the FSM state. -/
def State.setFsm (f : FsmState) (s : State) : State := { s with fsm := f }

end Sys2Proof.Machine
end

