-- ==== Sys2Proof/Machine/Input.lean ====
section
/-! DEFINITION. The INPUT command, the byte absorber and the bit-length accumulator (41_input.md). -/

namespace Sys2Proof.Machine

/-- ABSORB(b) (R60). -/
def Context.absorb (c : Context) (b : Byte) : Context :=
  let written := { c with buf := c.buf.set c.idx.val b, bitlen := c.bitlen.add8 }
  if c.idx = 63 then written.blockDone else { written with idx := c.idx + 1 }

/-- ABSORB for each byte of a data phase, in order (R59). -/
def Context.absorbAll (c : Context) (bs : List Byte) : Context := bs.foldl Context.absorb c

/-- INPUT (R59): the four checks in order, then the data phase is absorbed. The data phase transfers when BUFP = 1,
whatever the outcome (R50), and one that does not hold exactly LEN bytes is refused (R50, R108; log 14). -/
def execInput (bufp : Bool) (len : Word) (s : State) : Host.Outcome State Fault Refusal :=
  if bufp = true ∧ s.din.length ≠ len.toNat then .refused .dataPhaseLength
  else
    let taken := if bufp then s.takeDataPhase else s
    if len = 0#32 then .next (taken.complete .ok)
    else if bufp = false then .next (taken.complete .nullArgument)
    else if s.ctx.fin then .next ((taken.setCtx s.ctx.storeStateError).complete .stateError)
    else match s.ctx.corr.stored with
      | some e => .next (taken.complete e)
      | none => .next ((taken.setCtx (s.ctx.absorbAll s.din)).complete .ok)

end Sys2Proof.Machine
end

