-- ==== Sys2Proof/Machine/Reset.lean ====
section
/-! DEFINITION. The RESET command (40_reset.md). -/

namespace Sys2Proof.Machine

/-- RESET: every field at its initial value, from any state (R58). BUFP is ignored (R48). -/
def execReset (_bufp : Bool) (s : State) : Host.Outcome State Fault Refusal :=
  .next ((s.setCtx (.init s.ctx.bitlen.lenWidth)).complete .ok)

end Sys2Proof.Machine
end

