-- ==== Sys2Proof/Machine/Result.lean ====
section
/-! DEFINITION. The RESULT command, the padding and finalization FSM and the digest serializer
(43_finalization.md). -/

namespace Sys2Proof.Machine

/-- F_MARK's write: BUF[IDX] <- 0x80 (R78). -/
def Context.markEnd (c : Context) : Context := { c with buf := c.buf.set c.idx.val 0x80#8 }

/-- BUF[lo..hi-1] <- 0x00 (R80, R82). -/
def Context.zeroFill (lo hi : Nat) (c : Context) : Context := { c with buf := zeroBytes c.buf lo hi }

/-- F_LEN's write: BUF[56..63] <- BYTES64(zext_64(BITLEN)) (R83). -/
def Context.writeLength (c : Context) : Context :=
  { c with buf := writeBytes c.buf 56 (bytes64 c.bitlen.toField) }

/-- F_CLEAR's writes: BUF, BITLEN and FIN (R85). -/
def Context.clearSpent (c : Context) : Context :=
  { c with buf := Vector.replicate 64 0#8, bitlen := c.bitlen.clear, fin := true }

/-- The extra block is needed when IDX >= 56 on entry to F_MARK (R79). -/
def Context.needsExtraBlock (c : Context) : Bool := 56 ≤ c.idx.val

/-- The FSM as it runs within one RESULT: the fill pointer p, which has no value between commands (R20, R106), and the
state that holds the FSM state. -/
structure PadRun where
  p : Nat
  s : State
deriving DecidableEq, Repr

/-- One transition of the FSM, by the table of R77. -/
def padStep (r : PadRun) : PadRun :=
  let c := r.s.ctx
  match r.s.fsm with
  | .idle => r
  | .mark =>
    ⟨c.idx.val + 1, (r.s.setCtx c.markEnd).setFsm (if c.needsExtraBlock then .fillTail else .fillLen)⟩
  | .fillTail => ⟨max r.p 64, (r.s.setCtx (c.zeroFill r.p 64)).setFsm .compExtra⟩
  | .compExtra => ⟨0, (r.s.setCtx c.blockDone).setFsm .fillLen⟩
  | .fillLen => ⟨max r.p 56, (r.s.setCtx (c.zeroFill r.p 56)).setFsm .len⟩
  | .len => ⟨r.p, (r.s.setCtx c.writeLength).setFsm .compFinal⟩
  | .compFinal => ⟨r.p, (r.s.setCtx c.blockDone).setFsm .clear⟩
  | .clear => ⟨r.p, (r.s.setCtx c.clearSpent).setFsm .out⟩
  | .out => ⟨r.p, r.s.emitDigest.complete .ok⟩

/-- `n` transitions of the FSM. -/
def padRun : Nat → PadRun → PadRun
  | 0, r => r
  | n + 1, r => padRun n (padStep r)

/-- The most transitions a RESULT takes from F_MARK to F_IDLE: the eight states of the extra-block path (R77). -/
def padTransitions : Nat := 8

/-- FINALIZE() as the straight-line pseudocode of R77. -/
def Context.finalize (c : Context) : Context :=
  let marked := c.markEnd
  let opened :=
    if c.needsExtraBlock then ((marked.zeroFill (c.idx.val + 1) 64).blockDone).zeroFill 0 56
    else marked.zeroFill (c.idx.val + 1) 56
  opened.writeLength.blockDone.clearSpent

/-- RESULT (R76): the two checks in order; then the FSM runs from F_MARK, or from F_OUT when FIN = 1, until it is back
in F_IDLE, and on its way emits the digest and completes with OK (R77). -/
def execResult (bufp : Bool) (s : State) : Host.Outcome State Fault Refusal :=
  if bufp = false then .next (s.complete .nullArgument)
  else match s.ctx.corr.stored with
    | some e => .next (s.complete e)
    | none => .next (padRun padTransitions ⟨0, s.setFsm (if s.ctx.fin then .out else .mark)⟩).s

end Sys2Proof.Machine
end

