-- ==== Sys2Proof/Machine/Dispatch.lean ====
section
/-! DEFINITION. One arm per command of the opcode table. -/

namespace Sys2Proof.Machine

def exec (i : Instr) (s : State) : Host.Outcome State Fault Refusal :=
  match i with
  | .reset bufp => Sys2Proof.Machine.execReset bufp s
  | .input bufp len => Sys2Proof.Machine.execInput bufp len s
  | .result bufp => Sys2Proof.Machine.execResult bufp s

end Sys2Proof.Machine
end

