-- ==== Sys2Proof/Machine/Illegal.lean ====
section
/-! DEFINITION. What an illegal command word does (30_encoding.md R52). -/

namespace Sys2Proof.Machine

/-- An illegal command word: its data phase is consumed and discarded, no context field changes, and the status is
ILLEGAL_COMMAND (R52). CORR is not set. -/
def execIllegal (s : State) : State := s.takeDataPhase.complete .illegalCommand

end Sys2Proof.Machine
end

