-- ==== Sys2Proof/Machine/Port.lean ====
section
/-! DEFINITION. What the block does with one move of the host: it frames, decodes and performs a transaction
(30_encoding.md R45, R51, R52), or takes a power-on reset (70_reset_and_hazards.md R105). -/

namespace Sys2Proof.Machine

/-- The number of data-in beats of an instruction (R45 step 3; log 16). -/
def dataBeats : Instr → Nat
  | .reset _ => 0
  | .input bufp len => if bufp then len.toNat else 0
  | .result _ => 0

/-- One transaction: framed, decoded, and performed or refused (R45, R51, R52; log 4, log 13). -/
def runTransaction (t : Transaction) (s : State) : Host.Outcome State Fault Refusal :=
  match decode t.cmdBeats with
  | .instr i => if t.data.length = dataBeats i then exec i (s.receive t) else .refused .dataPhaseLength
  | .reject (.illegalCommand n) =>
    if t.data.length = n then .next (execIllegal (s.receive t)) else .refused .dataPhaseLength
  | .reject .noCommandWord => .refused .noCommandWord
  | .reject .missingLenWord => .refused .missingLenWord
  | .reject .surplusCommandBeat => .refused .surplusCommandBeat

/-- Power-on reset (R105): the context as RESET leaves it, the FSM in F_IDLE, no command in progress. The width of
BITLEN is the instance's own, and the host's moves and the trace stay (log 8). -/
def State.powerOn (s : State) : State :=
  { s with ctx := .init s.ctx.bitlen.lenWidth, fsm := .idle, din := [] }

/-- Beats that a host can have sent of a transaction that is not over: no more of any kind than R45 names (log 5). -/
def isTransactionStart (t : Transaction) : Bool :=
  match t.cmdBeats with
  | [] => t.data.isEmpty
  | [_] => t.data.isEmpty
  | [cmd, len] => opField cmd == 0b01#2 && t.data.length ≤ announcedData cmd len
  | _ => false

/-- The digest beats of a trace. -/
def digestBeatsOf (beats : List Beat) : List Beat :=
  beats.filter fun b => match b with
    | .dout _ => true
    | _ => false

/-- The digest beats that a transaction puts out when nothing cuts it short. -/
def digestBeatsOut (t : Transaction) (s : State) : List Beat :=
  match runTransaction t s with
  | .next s' => digestBeatsOf (s'.trace.drop s.trace.length)
  | _ => []

/-- Power-on reset while a command is in progress (R105): the beats that had transferred stay transferred, the status
is never returned, and the effects are overwritten by the reset values. -/
def powerOnDuring (sent : Transaction) (n : Nat) (s : State) : Host.Outcome State Fault Refusal :=
  if isTransactionStart sent = true ∧ n ≤ (digestBeatsOut sent s).length then
    .next { s.powerOn with
      trace := s.trace ++ sent.cmdBeats.map .cmd ++ sent.data.map .din ++ (digestBeatsOut sent s).take n }
  else .refused .notInProgress

/-- One move of the host. -/
def hostMove (m : HostMove) (s : State) : Host.Outcome State Fault Refusal :=
  match m with
  | .transaction t => runTransaction t s
  | .powerOnReset => .next s.powerOn
  | .powerOnResetDuring sent n => powerOnDuring sent n s

/-- The next move of the host, in arrival order (R36). With none, the block is idle and keeps every field (R104). -/
def nextMove (s : State) : Host.Outcome State Fault Refusal :=
  match s.port with
  | [] => .next s
  | m :: rest => hostMove m { s with port := rest }

/-- The host issues the transaction of the bits `w` before its other moves. -/
def State.issueTableWord (s : State) (nbits w : Nat) : State :=
  { s with port := .transaction (tableTransaction nbits w) :: s.port }

end Sys2Proof.Machine
end

