-- ==== Sys2Proof/Machine/Step.lean ====
section
/-! DEFINITION. The step of the machine: the next move of the host (20_memory.md R36). -/

namespace Sys2Proof.Machine

/-- One step. -/
def step (s : State) : Host.Outcome State Fault Refusal := nextMove s

/-- `s` with the instruction of the bits `w` as the host's next transaction (log 12). -/
def State.withFetchWord (s : State) (nbits w : Nat) : State := s.issueTableWord nbits w

end Sys2Proof.Machine
end

