-- ==== Sys2Proof/Machine/Assembler.lean ====
section
/-! DEFINITION. The command lines of 30_encoding.md R56 as abstract syntax, the transactions they stand for, and the
pseudo-command HASH of R57. Text is not parsed: a string or hex literal is the list of its bytes (log 9). -/

namespace Sys2Proof.Machine

/-- One line of R56, or the pseudo-command of R57. -/
inductive AsmLine where
  /-- `RESET` -/
  | reset
  /-- `INPUT "s"`, `INPUT x"h..."` and `INPUT ""` -/
  | input (bytes : List Byte)
  /-- `INPUT "s"*n` -/
  | inputRepeat (bytes : List Byte) (n : Nat)
  /-- `INPUT.NOBUF n` -/
  | inputNoBuf (n : Word)
  /-- `RESULT` -/
  | result
  /-- `RESULT.NOBUF` -/
  | resultNoBuf
  /-- `.cmd 0xHHHHHHHH` with its data phase as written -/
  | cmd (w : Word)
  /-- `.cmd 0xHHHHHHHH, n` with its data phase as written -/
  | cmdLen (w : Word) (n : Word) (data : List Byte)
  /-- `HASH "s"` (R57) -/
  | hash (bytes : List Byte)
deriving DecidableEq, Repr

/-- The transaction of an INPUT of `bytes` with a data source attached. LEN holds the number of bytes where that is
below 2^32 (R49); a longer list gives a transaction that is not well-formed. -/
def inputTransaction (bytes : List Byte) : Transaction :=
  ⟨encode (.input true (BitVec.ofNat 32 bytes.length)), bytes⟩

/-- The transactions a line stands for (R56, R57). -/
def AsmLine.assemble : AsmLine → List Transaction
  | .reset => [⟨encode (.reset false), []⟩]
  | .input bytes => [inputTransaction bytes]
  | .inputRepeat bytes n => [inputTransaction (List.replicate n bytes).flatten]
  | .inputNoBuf n => [⟨encode (.input false n), []⟩]
  | .result => [⟨encode (.result true), []⟩]
  | .resultNoBuf => [⟨encode (.result false), []⟩]
  | .cmd w => [⟨[w], []⟩]
  | .cmdLen w n data => [⟨[w, n], data⟩]
  | .hash bytes => [⟨encode (.reset false), []⟩, inputTransaction bytes, ⟨encode (.result true), []⟩]

/-- The host moves of a command sequence, one command per line in order (R56). -/
def assembleAll (lines : List AsmLine) : List HostMove :=
  (lines.flatMap AsmLine.assemble).map .transaction

end Sys2Proof.Machine
end

