-- ==== Sys2Proof/Machine/System.lean ====
section
/-! DEFINITION. A system of N_ENGINES independent instances (00_scope.md R6, 20_memory.md R42, 60_exceptions.md
R102). -/

namespace Sys2Proof.Machine

/-- N_ENGINES = n + 1 instances: "N_ENGINES >= 1" (R6). Each has its own register file and its own port. -/
structure System (n : Nat) where
  engines : Vector State (n + 1)
deriving DecidableEq, Repr

/-- "each instance starts from its own power-on reset" (R102). -/
def System.reset (n : Nat) : System n := ⟨Vector.replicate (n + 1) State.reset⟩

/-- Instance `k` takes a step. Which instance moves next is the caller's choice: "Nothing orders commands to different
instances against each other" (R42). -/
def System.stepEngine {n : Nat} (k : Fin (n + 1)) (sys : System n) : Host.Outcome (System n) Fault Refusal :=
  match step sys.engines[k] with
  | .next s => .next ⟨sys.engines.set k.val s⟩
  | .fault r => .fault r
  | .refused r => .refused r

end Sys2Proof.Machine
end

