-- ==== Sys2Proof/Safety.lean ====
section
/-! DEFINITION. The terms claims use: what a host observes, the invariants of 10_state.md R22, contexts that differ in
stale bytes only, and the SHA-1 of a message as the padded message of 43_finalization.md R86 hashed block by block. -/

namespace Sys2Proof.Machine

/-- What a host observes of a trace: the digest bytes and the statuses (10_state.md R23). -/
def observed (trace : List Beat) : List Beat :=
  trace.filter fun b => match b with
    | .dout _ => true
    | .rsp _ => true
    | _ => false

/-- `k` steps from `s`, stopping at the first fault or refusal. It is the run of `Sys2Proof.core` (`runSteps_eq_run`). -/
def runSteps : Nat → State → Host.Outcome State Fault Refusal
  | 0, s => .next s
  | k + 1, s =>
    match step s with
    | .next t => runSteps k t
    | .fault r => .fault r
    | .refused r => .refused r

/-- A run of `k` steps from `s` that meets no fault and no refusal ends in `t`. -/
def RunsTo (s : State) (k : Nat) (t : State) : Prop := runSteps k s = .next t

/-- I-2: a spent context has IDX = 0, BITLEN = 0 and a cleared BUF (R22). I-1 holds by the type of IDX. -/
def Context.SpentIsClear (c : Context) : Prop :=
  c.fin = true → c.idx = 0 ∧ c.bitlen.toNat = 0 ∧ c.buf = Vector.replicate 64 0#8

/-- I-3: a stored error is in a spent context (R22). -/
def Context.ErrorIsSpent (c : Context) : Prop := c.corr ≠ .none → c.fin = true

/-- I-4: while a message is absorbed, BITLEN and IDX count the same number of bytes (R22). -/
def Context.CountsBytes (c : Context) : Prop :=
  c.fin = false → ∃ n : Nat, c.bitlen.toNat = 8 * n % 2 ^ c.bitlen.lenWidth.bits ∧ c.idx.val = n % 64

/-- The invariants of R22, with "No rule of this hardware writes it" for CORRUPTED (R18). -/
structure Context.Inv (c : Context) : Prop where
  spentIsClear  : c.SpentIsClear
  errorIsSpent  : c.ErrorIsSpent
  countsBytes   : c.CountsBytes
  notCorrupted  : c.corr ≠ .corrupted

/-- The invariant of the machine between commands: that of the context, F_IDLE (R104), and no data phase pending. -/
structure State.Inv (s : State) : Prop where
  ctx  : s.ctx.Inv
  idle : s.fsm = .idle
  din  : s.din = []

/-- Two contexts "whose fields differ only in stale BUF bytes" (R23): the bytes BUF[IDX..63] (R14). -/
structure Context.StaleEq (c d : Context) : Prop where
  h      : c.h = d.h
  idx    : c.idx = d.idx
  bitlen : c.bitlen = d.bitlen
  fin    : c.fin = d.fin
  corr   : c.corr = d.corr
  buf    : ∀ (j : Nat) (hj : j < 64), j < c.idx.val → c.buf[j] = d.buf[j]

/-- Two states that differ only in stale BUF bytes. -/
structure State.StaleEq (s t : State) : Prop where
  ctx   : s.ctx.StaleEq t.ctx
  fsm   : s.fsm = t.fsm
  port  : s.port = t.port
  din   : s.din = t.din
  trace : s.trace = t.trace

/-- The host issues INPUT commands for the pieces of a message, in order (R63). -/
def inputMoves (pieces : List (List Byte)) : List HostMove := assembleAll (pieces.map .input)

/-- The standard SHA-1 padded message (R86): the message, 0x80, z = (55 - n) mod 64 zero bytes, and the 8-byte
big-endian value 8n. -/
def padMessage (m : List Byte) : List Byte :=
  m ++ [0x80#8] ++ List.replicate ((119 - m.length % 64) % 64) 0#8 ++ bytes64 (BitVec.ofNat 64 (8 * m.length))

/-- Block `i` of a byte sequence. -/
def blockAt (bs : List Byte) (i : Nat) : Vector Byte 64 := Vector.ofFn fun j => bs.getD (64 * i + j.val) 0#8

/-- The Merkle-Damgard iteration of `compress` over the whole blocks of a byte sequence, from the initial values of
R12. -/
def hashBlocks (bs : List Byte) : Vector Word 5 :=
  (List.range (bs.length / 64)).foldl (fun h i => compress h (blockAt bs i)) initialHash

/-- The digest of a message, independently of commands, buffering and the FSM. -/
def messageDigest (m : List Byte) : List Byte := digest (hashBlocks (padMessage m))

end Sys2Proof.Machine
end

