-- ==== Sys2Proof/WellFormed.lean ====
section
/-! DEFINITION. Which transactions are well-formed: the framing of 30_encoding.md R45, R50 and R52, which depends on
CMD[2:0] and LEN alone, never on the context. -/

namespace Sys2Proof

/-- A transaction is well-formed when it has a command word, a LEN word exactly when OP = 0b01, and a data phase of
exactly LEN bytes when OP = 0b01 and BUFP = 1, and of none otherwise (R45). The same holds of an illegal command word:
"Its framing still follows rule R45, using CMD[2:0]" (R52). -/
def Transaction.wellFormed (t : Transaction) : Bool :=
  match t.cmdBeats with
  | [cmd] => cmd.extractLsb' 0 2 != 1#2 && t.data.isEmpty
  | [cmd, len] =>
    cmd.extractLsb' 0 2 == 1#2 && t.data.length == (if cmd.getLsbD 2 then len.toNat else 0)
  | _ => false

end Sys2Proof
end

