-- ==== Sys2Proof/Certificates/Slice0/Obligations.lean ====
section
/-! DEFINITION. The statements for the provers. -/

open Sys2Proof Sys2Proof.Machine

/-! ### Encoding and decoding -/

/-- 30_encoding.md R46, R47, R49, R55: a list of command-channel beats decodes to an instruction exactly when it is
that instruction's encoding. So no bit of an encoding is dropped, and no other beats decode. -/
def Obligations.DecodeAndEncodeAgree : Prop :=
  ∀ (ws : List Word) (i : Instr), decode ws = .instr i ↔ ws = encode i

/-- R51: "Any 32-bit value is decoded to exactly one of RESET, INPUT, RESULT or illegal". The fields are read here by
division: CMD[31:3] is CMD / 8, CMD[2] is CMD / 4 mod 2, CMD[1:0] is CMD mod 4. -/
def Obligations.CommandWordDecodesByItsFields : Prop :=
  ∀ cmd : Word,
    let bufp : Bool := cmd.toNat / 4 % 2 == 1
    ((cmd.toNat / 8 ≠ 0 ∨ cmd.toNat % 4 = 3) → classify cmd = .illegal) ∧
    (cmd.toNat / 8 = 0 → cmd.toNat % 4 = 0 → classify cmd = .reset bufp) ∧
    (cmd.toNat / 8 = 0 → cmd.toNat % 4 = 1 → classify cmd = .input bufp) ∧
    (cmd.toNat / 8 = 0 → cmd.toNat % 4 = 2 → classify cmd = .result bufp)

/-- R53: every encoding outside the six legal command words is illegal, and the six are legal. -/
def Obligations.SixLegalCommandWords : Prop :=
  ∀ cmd : Word,
    classify cmd ≠ .illegal ↔
      cmd ∈ ([0x00000000, 0x00000001, 0x00000002, 0x00000004, 0x00000005, 0x00000006] : List Word)

/-- The decoder vectors of 95_test_vectors.md section 2.8, D-1 to D-12. -/
def Obligations.SpecWordsDecode : Prop :=
  decode [0x00000000] = .instr (.reset false) ∧
  decode [0x00000004] = .instr (.reset true) ∧
  decode [0x00000001, 7] = .instr (.input false 7) ∧
  decode [0x00000005, 7] = .instr (.input true 7) ∧
  decode [0x00000002] = .instr (.result false) ∧
  decode [0x00000006] = .instr (.result true) ∧
  decode [0x00000003] = .reject (.illegalCommand 0) ∧
  decode [0x00000007] = .reject (.illegalCommand 0) ∧
  decode [0x00000008] = .reject (.illegalCommand 0) ∧
  decode [0x0000000D, 3] = .reject (.illegalCommand 3) ∧
  decode [0x80000000] = .reject (.illegalCommand 0) ∧
  decode [0xFFFFFFFF] = .reject (.illegalCommand 0)

/-- R56 and R57: the words, LEN words and data phases that the command lines stand for. That a line is abstract syntax,
its literal a list of bytes, is the model's choice (log 9). -/
def Obligations.AssemblerLinesGiveTheirBeats : Prop :=
  ∀ (bytes : List Byte) (n : Nat) (len w : Word),
    AsmLine.assemble .reset = [⟨[0x00000000], []⟩] ∧
    (AsmLine.input bytes).assemble = [⟨[0x00000005, BitVec.ofNat 32 bytes.length], bytes⟩] ∧
    (AsmLine.inputRepeat bytes n).assemble =
      [⟨[0x00000005, BitVec.ofNat 32 (n * bytes.length)], (List.replicate n bytes).flatten⟩] ∧
    (AsmLine.inputNoBuf len).assemble = [⟨[0x00000001, len], []⟩] ∧
    AsmLine.assemble .result = [⟨[0x00000006], []⟩] ∧
    AsmLine.assemble .resultNoBuf = [⟨[0x00000002], []⟩] ∧
    (AsmLine.cmd w).assemble = [⟨[w], []⟩] ∧
    (AsmLine.cmdLen w len bytes).assemble = [⟨[w, len], bytes⟩] ∧
    (AsmLine.hash bytes).assemble =
      AsmLine.assemble .reset ++ (AsmLine.input bytes).assemble ++ AsmLine.assemble .result

/-! ### The step -/

/-- R36, R45, R51: when the oldest move is a well-formed transaction whose beats decode to `i`, the step is `exec i` on
the state in which the command-channel beats have transferred and the data phase is offered. -/
def Obligations.StepPerformsTheDecodedCommand : Prop :=
  ∀ (s : State) (t : Transaction) (rest : List HostMove) (i : Instr),
    s.port = .transaction t :: rest → t.wellFormed = true → decode t.cmdBeats = .instr i →
    step s = exec i { s with port := rest, din := t.data, trace := s.trace ++ t.cmdBeats.map .cmd }

/-- R52: an illegal command word, with its framing by CMD[2:0], leaves every context field, emits no digest byte and
completes with ILLEGAL_COMMAND; its LEN word and data bytes are consumed and discarded. -/
def Obligations.IllegalCommandCompletes : Prop :=
  ∀ (s : State) (cmd : Word) (more : List Word) (data : List Byte) (rest : List HostMove),
    s.port = .transaction ⟨cmd :: more, data⟩ :: rest →
    Transaction.wellFormed ⟨cmd :: more, data⟩ = true →
    (cmd.toNat / 8 ≠ 0 ∨ cmd.toNat % 4 = 3) →
    step s = .next { s with
      fsm := .idle
      port := rest
      din := []
      trace := s.trace ++ .cmd cmd :: more.map .cmd ++ data.map .din ++ [.rsp .illegalCommand] }

/-- R45: every well-formed transaction completes, from every state: the command-channel beats, the data-in beats,
20 digest beats exactly when the command is RESULT and its status is OK, and one status beat, which is the last. The
claim that a command ends is R114's; that the host takes the output beats is the model's choice (log 3). -/
def Obligations.WellFormedTransactionCompletes : Prop :=
  ∀ (s : State) (t : Transaction) (rest : List HostMove),
    s.port = .transaction t :: rest → t.wellFormed = true →
    ∃ (s' : State) (out : List Byte) (st : Status),
      step s = .next s' ∧ s'.port = rest ∧ s'.din = [] ∧ s'.fsm = .idle ∧
      s'.trace = s.trace ++ t.cmdBeats.map .cmd ++ t.data.map .din ++ out.map .dout ++ [.rsp st] ∧
      ((st = .ok ∧ ∃ bufp, decode t.cmdBeats = .instr (.result bufp)) → out.length = 20) ∧
      (¬(st = .ok ∧ ∃ bufp, decode t.cmdBeats = .instr (.result bufp)) → out = [])

/-- R50, R108: a transaction that is not well-formed is refused, and so is an INPUT whose data phase does not hold
exactly LEN bytes. -/
def Obligations.MalformedTransactionIsRefused : Prop :=
  (∀ (s : State) (t : Transaction) (rest : List HostMove),
    s.port = .transaction t :: rest → t.wellFormed = false → ∃ r, step s = .refused r) ∧
  (∀ (s : State) (len : Word), s.din.length ≠ len.toNat → exec (.input true len) s = .refused .dataPhaseLength)

/-- R104: with no move of the host pending, the block is idle and keeps every field. That an idle block takes a step is
the model's choice (log 2). -/
def Obligations.IdleBlockKeepsItsState : Prop :=
  ∀ s : State, s.port = [] → step s = .next s

/-! ### Reset -/

/-- R106: the state after power-on reset, for either LEN_WIDTH, and after a RESET command from any state. -/
def Obligations.ResetStateIsAsTabled : Prop :=
  (∀ (w : LenWidth) (s : State), s = State.resetOf w ∨ (∃ b s₀, exec (.reset b) s₀ = .next s) →
    s.ctx.h = #v[0x67452301, 0xEFCDAB89, 0x98BADCFE, 0x10325476, 0xC3D2E1F0] ∧
    (∀ (j : Nat) (hj : j < 64), s.ctx.buf[j] = 0x00#8) ∧
    s.ctx.idx = 0 ∧ s.ctx.bitlen.toNat = 0 ∧ s.ctx.fin = false ∧ s.ctx.corr = .none ∧ s.fsm = .idle) ∧
  State.reset = State.resetOf .w32

/-- R105: rst_n between commands puts the context into the state RESET leaves and the FSM into F_IDLE, with no command
in progress; no status is returned. -/
def Obligations.PowerOnResetBetweenCommands : Prop :=
  ∀ (s : State) (rest : List HostMove), s.port = .powerOnReset :: rest →
    step s = .next { s with ctx := .init s.ctx.bitlen.lenWidth, fsm := .idle, port := rest, din := [] }

/-- R105: rst_n during a command abandons it. From any state, for any beats that start a transaction, the reset values
hold afterwards, and nothing but the beats sent is added to the trace: in particular no status. A RESULT that was to
return a digest may have put out its first `n` bytes. How much had transferred is part of the host's move (log 5). -/
def Obligations.PowerOnResetAbandonsTheCommand : Prop :=
  (∀ (s : State) (sent : Transaction) (rest : List HostMove),
    s.port = .powerOnResetDuring sent 0 :: rest → isTransactionStart sent = true →
    step s = .next { s with
      ctx := .init s.ctx.bitlen.lenWidth
      fsm := .idle
      port := rest
      din := []
      trace := s.trace ++ sent.cmdBeats.map .cmd ++ sent.data.map .din }) ∧
  (∀ (s : State) (n : Nat) (rest : List HostMove),
    s.port = .powerOnResetDuring ⟨encode (.result true), []⟩ n :: rest → s.ctx.corr = .none → n ≤ 20 →
    step s = .next { s with
      ctx := .init s.ctx.bitlen.lenWidth
      fsm := .idle
      port := rest
      din := []
      trace := s.trace ++ [.cmd 0x00000006] ++
        ((digest (if s.ctx.fin then s.ctx.h else s.ctx.finalize.h)).take n).map .dout })

/-- R58: RESET completes with OK from every state, with every context field at its initial value, for either BUFP.
Nothing of the host's side changes but the trace. -/
def Obligations.ResetReinitialisesTheContext : Prop :=
  ∀ (bufp : Bool) (s : State),
    exec (.reset bufp) s = .next { s with
      ctx := {
        h := #v[0x67452301, 0xEFCDAB89, 0x98BADCFE, 0x10325476, 0xC3D2E1F0]
        buf := Vector.replicate 64 0x00#8
        idx := 0
        bitlen := .zero s.ctx.bitlen.lenWidth
        fin := false
        corr := .none }
      fsm := .idle
      trace := s.trace ++ [.rsp .ok] }

/-! ### INPUT -/

/-- R59: INPUT's checks in order, for every state and both values of BUFP, whenever the data phase is framed. -/
def Obligations.InputFollowsItsChecksInOrder : Prop :=
  ∀ (bufp : Bool) (len : Word) (s : State), (bufp = true → s.din.length = len.toNat) →
    let done (st : Status) (c : Context) : State := { s with
      ctx := c
      fsm := .idle
      din := if bufp then [] else s.din
      trace := s.trace ++ (if bufp then s.din.map .din else []) ++ [.rsp st] }
    (len = 0#32 → exec (.input bufp len) s = .next (done .ok s.ctx)) ∧
    (len ≠ 0#32 → bufp = false → exec (.input bufp len) s = .next (done .nullArgument s.ctx)) ∧
    (len ≠ 0#32 → bufp = true → s.ctx.fin = true →
      exec (.input bufp len) s = .next (done .stateError { s.ctx with corr := .stateError })) ∧
    (len ≠ 0#32 → bufp = true → s.ctx.fin = false → s.ctx.corr = .stateError →
      exec (.input bufp len) s = .next (done .stateError s.ctx)) ∧
    (len ≠ 0#32 → bufp = true → s.ctx.fin = false → s.ctx.corr = .corrupted →
      exec (.input bufp len) s = .next (done .corrupted s.ctx)) ∧
    (len ≠ 0#32 → bufp = true → s.ctx.fin = false → s.ctx.corr = .none →
      exec (.input bufp len) s = .next (done .ok (s.din.foldl Context.absorb s.ctx)))

/-- The frame of INPUT (R19, R24, R59, R60): FIN, the width of BITLEN, the port and every BUF byte that no absorbed
byte is written to are unchanged; H changes only when a block is filled; on every error path H, BUF, IDX and BITLEN are
unchanged; CORR changes only on check 3; no digest byte is emitted. -/
def Obligations.InputFrame : Prop :=
  ∀ (bufp : Bool) (len : Word) (s t : State), exec (.input bufp len) s = .next t →
    t.port = s.port ∧
    t.ctx.fin = s.ctx.fin ∧
    t.ctx.bitlen.lenWidth = s.ctx.bitlen.lenWidth ∧
    (s.ctx.idx.val + len.toNat < 64 → t.ctx.h = s.ctx.h) ∧
    (∀ (j : Nat) (hj : j < 64), (∀ k, k < len.toNat → (s.ctx.idx.val + k) % 64 ≠ j) → t.ctx.buf[j] = s.ctx.buf[j]) ∧
    ((bufp = false ∨ s.ctx.fin = true ∨ s.ctx.corr ≠ .none) →
      t.ctx.h = s.ctx.h ∧ t.ctx.buf = s.ctx.buf ∧ t.ctx.idx = s.ctx.idx ∧ t.ctx.bitlen = s.ctx.bitlen) ∧
    (¬(len ≠ 0#32 ∧ bufp = true ∧ s.ctx.fin = true) → t.ctx.corr = s.ctx.corr) ∧
    ∃ st, t.trace = s.trace ++ (if bufp then s.din.map .din else []) ++ [.rsp st]

/-- R60: what ABSORB of one byte writes, and that it writes nothing else. -/
def Obligations.AbsorbWritesOneByte : Prop :=
  ∀ (c : Context) (b : Byte),
    (∀ (j : Nat) (hj : j < 64), (c.absorb b).buf[j] = if j = c.idx.val then b else c.buf[j]) ∧
    (c.absorb b).bitlen.toNat = (c.bitlen.toNat + 8) % 2 ^ c.bitlen.lenWidth.bits ∧
    (c.absorb b).bitlen.lenWidth = c.bitlen.lenWidth ∧
    (c.idx.val = 63 → c.absorb b = ({ c with
      buf := c.buf.set c.idx.val b, bitlen := (c.absorb b).bitlen } : Context).blockDone) ∧
    (c.idx.val ≠ 63 → (c.absorb b).h = c.h ∧ (c.absorb b).idx.val = c.idx.val + 1) ∧
    (c.absorb b).fin = c.fin ∧ (c.absorb b).corr = c.corr

/-- R61: BLOCK_DONE compresses BUF into H, empties the index and keeps the bytes of BUF. -/
def Obligations.BlockDoneCompressesAndEmpties : Prop :=
  ∀ c : Context, c.blockDone = { c with h := compress c.h c.buf, idx := 0 }

/-- R62: after a successful INPUT of LEN bytes, BITLEN has gone up by 8 LEN modulo 2^LEN_WIDTH, with no error reported
for a wrap; after RESET and a message of n bytes it is 8n modulo 2^LEN_WIDTH. IDX counts the bytes modulo 64. -/
def Obligations.BitLengthCountsTheMessage : Prop :=
  (∀ (len : Word) (s : State), s.din.length = len.toNat → s.ctx.fin = false → s.ctx.corr = .none →
    ∃ t, exec (.input true len) s = .next t ∧
      t.ctx.bitlen.toNat = (s.ctx.bitlen.toNat + 8 * len.toNat) % 2 ^ s.ctx.bitlen.lenWidth.bits ∧
      t.ctx.idx.val = (s.ctx.idx.val + len.toNat) % 64 ∧
      t.ctx.corr = .none ∧ t.trace.getLast? = some (.rsp .ok)) ∧
  (∀ (w : LenWidth) (m : List Byte),
    ((Context.init w).absorbAll m).bitlen.toNat = 8 * m.length % 2 ^ w.bits ∧
    ((Context.init w).absorbAll m).idx.val = m.length % 64)

/-- R63: any two splits of a message, each piece within one LEN, leave the same context but for stale BUF bytes, from
every state that accepts bytes, and the RESULT that follows puts out the same beats. -/
def Obligations.ChunkInvariance : Prop :=
  ∀ (s : State) (ps qs : List (List Byte)),
    ps.flatten = qs.flatten → (∀ p ∈ ps ++ qs, p.length < 2 ^ 32) → s.ctx.fin = false → s.ctx.corr = .none →
    ∃ t u, RunsTo { s with port := inputMoves ps } ps.length t ∧
      RunsTo { s with port := inputMoves qs } qs.length u ∧
      t.port = [] ∧ u.port = [] ∧
      t.ctx.h = u.ctx.h ∧ t.ctx.idx = u.ctx.idx ∧ t.ctx.bitlen = u.ctx.bitlen ∧
      (∀ (j : Nat) (hj : j < 64), j < t.ctx.idx.val → t.ctx.buf[j] = u.ctx.buf[j]) ∧
      t.ctx.fin = u.ctx.fin ∧ t.ctx.corr = u.ctx.corr ∧
      ∃ t' u' out, exec (.result true) t = .next t' ∧ exec (.result true) u = .next u' ∧
        t'.trace = t.trace ++ out ∧ u'.trace = u.trace ++ out

/-! ### The compression function -/

/-- R9: ROTL as the formula gives it, and bit by bit. -/
def Obligations.RotlIsTheCircularLeftShift : Prop :=
  ∀ (n : Nat) (x : Word), 1 ≤ n → n ≤ 31 →
    (rotl n x).toNat = ((x.toNat <<< n) ||| (x.toNat >>> (32 - n))) % 2 ^ 32 ∧
    ∀ i, i < 32 → (rotl n x).getLsbD i = x.getLsbD ((i + (32 - n)) % 32)

/-- R10: a word is assembled from 4 bytes, the first the most significant, and BYTES32 takes it apart again. -/
def Obligations.WordsAreBigEndian : Prop :=
  ∀ b0 b1 b2 b3 : Byte,
    (be32 b0 b1 b2 b3).toNat = b0.toNat * 2 ^ 24 + b1.toNat * 2 ^ 16 + b2.toNat * 2 ^ 8 + b3.toNat ∧
    bytes32 (be32 b0 b1 b2 b3) = [b0, b1, b2, b3]

/-- R65 and R66: the schedule has 80 words, the first 16 of which are the block and the others the recurrence. -/
def Obligations.ScheduleIsTheBlockThenTheRecurrence : Prop :=
  ∀ blk : Vector Byte 64,
    (schedule blk).length = 80 ∧
    (∀ (t : Nat) (ht : t < 16),
      (schedule blk).getD t 0#32 = be32 blk[4 * t] blk[4 * t + 1] blk[4 * t + 2] blk[4 * t + 3]) ∧
    (∀ t, 16 ≤ t → t < 80 →
      (schedule blk).getD t 0#32 = rotl 1 ((schedule blk).getD (t - 3) 0#32 ^^^ (schedule blk).getD (t - 8) 0#32 ^^^
        (schedule blk).getD (t - 14) 0#32 ^^^ (schedule blk).getD (t - 16) 0#32))

/-- R67, R68, R69: the round functions stage by stage, as formulas and bit by bit. -/
def Obligations.RoundFunctionsByStage : Prop :=
  ∀ (t : Nat) (b c d : Word),
    (t < 20 → roundFunction t b c d = (b &&& c) ||| (~~~b &&& d) ∧
      ∀ i, (roundFunction t b c d).getLsbD i = if b.getLsbD i then c.getLsbD i else d.getLsbD i) ∧
    (((20 ≤ t ∧ t < 40) ∨ (60 ≤ t ∧ t < 80)) → roundFunction t b c d = b ^^^ c ^^^ d) ∧
    (40 ≤ t → t < 60 → roundFunction t b c d = (b &&& c) ||| (b &&& d) ||| (c &&& d) ∧
      ∀ i v, (roundFunction t b c d).getLsbD i = v ↔
        2 ≤ ([b.getLsbD i, c.getLsbD i, d.getLsbD i].count v))

/-- R70: the round constant and the mixing function of each stage. -/
def Obligations.RoundConstantsByStage : Prop :=
  ∀ t : Nat,
    (t < 20 → roundConstant t = 0x5A827999 ∧ roundFunction t = choose) ∧
    (20 ≤ t → t < 40 → roundConstant t = 0x6ED9EBA1 ∧ roundFunction t = parity) ∧
    (40 ≤ t → t < 60 → roundConstant t = 0x8F1BBCDC ∧ roundFunction t = majority) ∧
    (60 ≤ t → t < 80 → roundConstant t = 0xCA62C1D6 ∧ roundFunction t = parity)

/-- R64, R66, R71, R72, R73: whatever sequences W, A, B, C, D and E obey the rules of the schedule, the loading and
the 80 rounds, `compress` is the feed-forward of the variables after round 79. -/
def Obligations.CompressIsEightyRounds : Prop :=
  ∀ (h : Vector Word 5) (blk : Vector Byte 64) (W A B C D E : Nat → Word),
    (∀ (t : Nat) (ht : t < 16), W t = be32 blk[4 * t] blk[4 * t + 1] blk[4 * t + 2] blk[4 * t + 3]) →
    (∀ t, 16 ≤ t → t < 80 → W t = rotl 1 (W (t - 3) ^^^ W (t - 8) ^^^ W (t - 14) ^^^ W (t - 16))) →
    A 0 = h[0] → B 0 = h[1] → C 0 = h[2] → D 0 = h[3] → E 0 = h[4] →
    (∀ t, t < 80 →
      A (t + 1) = rotl 5 (A t) + E t + W t + roundConstant t + roundFunction t (B t) (C t) (D t) ∧
      B (t + 1) = A t ∧ C (t + 1) = rotl 30 (B t) ∧ D (t + 1) = C t ∧ E (t + 1) = D t) →
    compress h blk = #v[h[0] + A 80, h[1] + B 80, h[2] + C 80, h[3] + D 80, h[4] + E 80]

/-! ### RESULT -/

/-- R76: RESULT's checks in order, for every state and both values of BUFP. The FSM's run is the straight-line
FINALIZE of R77. RESULT takes no data phase and leaves the port as it is. -/
def Obligations.ResultFollowsItsChecksInOrder : Prop :=
  ∀ (bufp : Bool) (s : State),
    let done (st : Status) (c : Context) (out : List Byte) : State := { s with
      ctx := c
      fsm := .idle
      trace := s.trace ++ out.map .dout ++ [.rsp st] }
    (bufp = false → exec (.result bufp) s = .next (done .nullArgument s.ctx [])) ∧
    (bufp = true → s.ctx.corr = .stateError → exec (.result bufp) s = .next (done .stateError s.ctx [])) ∧
    (bufp = true → s.ctx.corr = .corrupted → exec (.result bufp) s = .next (done .corrupted s.ctx [])) ∧
    (bufp = true → s.ctx.corr = .none → s.ctx.fin = true →
      exec (.result bufp) s = .next (done .ok s.ctx (digest s.ctx.h))) ∧
    (bufp = true → s.ctx.corr = .none → s.ctx.fin = false →
      exec (.result bufp) s = .next (done .ok s.ctx.finalize (digest s.ctx.finalize.h)))

/-- R77: a RESULT that passes its checks runs the FSM from F_MARK when FIN = 0 and from F_OUT when FIN = 1. From F_MARK
it goes through the states of its table, by the branch of R79, and back to F_IDLE; p stays within 0..64; and the
context it leaves is that of the straight-line pseudocode. F_OUT emits the digest, completes with OK and goes to
F_IDLE. -/
def Obligations.FsmFollowsItsTable : Prop :=
  ∀ (s : State) (k : Nat), k < 9 →
    (s.ctx.corr = .none →
      exec (.result true) s = .next (padRun 8 ⟨0, s.setFsm (if s.ctx.fin then .out else .mark)⟩).s) ∧
    (padStep ⟨0, s.setFsm .out⟩).s = s.emitDigest.complete .ok ∧
    let path : List FsmState :=
      if 56 ≤ s.ctx.idx.val then [.mark, .fillTail, .compExtra, .fillLen, .len, .compFinal, .clear, .out, .idle]
      else [.mark, .fillLen, .len, .compFinal, .clear, .out, .idle, .idle, .idle]
    path[k]? = some (padRun k ⟨0, s.setFsm .mark⟩).s.fsm ∧
    (padRun k ⟨0, s.setFsm .mark⟩).p ≤ 64 ∧
    (padRun 8 ⟨0, s.setFsm .mark⟩).s.ctx = s.ctx.finalize

/-- R78 to R84: the blocks FINALIZE compresses. With IDX <= 55 there is one: the message bytes, 0x80, zeros and the
length field. With IDX >= 56 there are two, the first without and the second with the length field. -/
def Obligations.FinalizeCompressesThePaddedBlocks : Prop :=
  ∀ s : State, s.ctx.corr = .none → s.ctx.fin = false →
    ∃ t, exec (.result true) s = .next t ∧
      (s.ctx.idx.val ≤ 55 → ∀ blk : Vector Byte 64,
        (∀ (j : Nat) (hj : j < 64), blk[j] =
          if j < s.ctx.idx.val then s.ctx.buf[j] else if j = s.ctx.idx.val then 0x80#8
          else if j < 56 then 0x00#8 else (bytes64 s.ctx.bitlen.toField).getD (j - 56) 0#8) →
        t.ctx.h = compress s.ctx.h blk) ∧
      (56 ≤ s.ctx.idx.val → ∀ blk₁ blk₂ : Vector Byte 64,
        (∀ (j : Nat) (hj : j < 64), blk₁[j] =
          if j < s.ctx.idx.val then s.ctx.buf[j] else if j = s.ctx.idx.val then 0x80#8 else 0x00#8) →
        (∀ (j : Nat) (hj : j < 64), blk₂[j] =
          if j < 56 then 0x00#8 else (bytes64 s.ctx.bitlen.toField).getD (j - 56) 0#8) →
        t.ctx.h = compress (compress s.ctx.h blk₁) blk₂)

/-- R83: F_LEN writes the 64-bit length field, most significant byte in BUF[56], and no other byte. -/
def Obligations.LengthFieldIsBigEndian : Prop :=
  ∀ (p : Nat) (s : State), s.fsm = .len →
    let buf := (padStep ⟨p, s⟩).s.ctx.buf
    (∀ (j : Nat) (hj : j < 56), buf[j] = s.ctx.buf[j]) ∧
    (∀ v, s.ctx.bitlen = .w32 v →
      (∀ (j : Nat) (hj : j < 4), buf[56 + j] = 0x00#8) ∧
      (∀ (j : Nat) (hj : j < 4), buf[60 + j].toNat = v.toNat / 2 ^ (24 - 8 * j) % 2 ^ 8)) ∧
    (∀ v, s.ctx.bitlen = .w64 v →
      ∀ (j : Nat) (hj : j < 8), buf[56 + j].toNat = v.toNat / 2 ^ (56 - 8 * j) % 2 ^ 8)

/-- R85: what a finalizing RESULT leaves: BUF and BITLEN cleared, FIN set, IDX 0, and CORR as it was. -/
def Obligations.FinalizeClearsTheContext : Prop :=
  ∀ s : State, s.ctx.corr = .none → s.ctx.fin = false →
    ∃ t, exec (.result true) s = .next t ∧
      (∀ (j : Nat) (hj : j < 64), t.ctx.buf[j] = 0x00#8) ∧
      t.ctx.bitlen.toNat = 0 ∧ t.ctx.bitlen.lenWidth = s.ctx.bitlen.lenWidth ∧
      t.ctx.fin = true ∧ t.ctx.idx = 0 ∧ t.ctx.corr = .none

/-- R86: absorbing a message below the ceiling and finalizing hashes the standard padded message, whose length is a
whole number of blocks: the full blocks of the message and 1 or 2 more. -/
def Obligations.FinalizeHashesThePaddedMessage : Prop :=
  ∀ (w : LenWidth) (m : List Byte), m.length < w.ceiling →
    ((Context.init w).absorbAll m).finalize.h = hashBlocks (padMessage m) ∧
    (padMessage m).length = 64 * (m.length / 64 + if m.length % 64 ≤ 55 then 1 else 2)

/-- R87: digest byte 4i+j is byte j, from the most significant, of H[i]; there are 20; and emitting them changes no
context field. -/
def Obligations.DigestIsHInBigEndianOrder : Prop :=
  (∀ (h : Vector Word 5) (i j : Nat) (hi : i < 5), j < 4 →
    (digest h)[4 * i + j]? = some (h[i].extractLsb' (24 - 8 * j) 8)) ∧
  (∀ h : Vector Word 5, (digest h).length = 20) ∧
  (∀ s : State, s.emitDigest = { s with trace := s.trace ++ (digest s.ctx.h).map .dout })

/-- R88: RESULT on a finalized context emits the digest and changes no field of the context, and no command but RESET
changes H or FIN once FIN = 1. -/
def Obligations.RepeatedResultIsIdempotent : Prop :=
  (∀ s : State, s.ctx.fin = true → s.ctx.corr = .none →
    exec (.result true) s = .next { s with
      fsm := .idle, trace := s.trace ++ (digest s.ctx.h).map .dout ++ [.rsp .ok] }) ∧
  (∀ (i : Instr) (s t : State), s.ctx.fin = true → (∀ b, i ≠ .reset b) → exec i s = .next t →
    t.ctx.h = s.ctx.h ∧ t.ctx.fin = true)

/-- The headline (R1, R63, R76, R86, R87): from every state, whatever was done before, RESET, the message in any
pieces and RESULT complete with OK and put out exactly the digest of the message: that of the padded message hashed
block by block. The message is below the ceiling of the instance's LEN_WIDTH (R111). -/
def Obligations.HashingAMessageEmitsItsDigest : Prop :=
  ∀ (s : State) (ps : List (List Byte)),
    (∀ p ∈ ps, p.length < 2 ^ 32) → ps.flatten.length < s.ctx.bitlen.lenWidth.ceiling →
    ∃ t, RunsTo { s with port := assembleAll ([.reset] ++ ps.map .input ++ [.result]) } (ps.length + 2) t ∧
      t.port = [] ∧
      observed t.trace = observed s.trace ++ List.replicate (ps.length + 1) (.rsp .ok) ++
        (messageDigest ps.flatten).map .dout ++ [.rsp .ok]

/-- R5: for a message below 2^29 bytes, LEN_WIDTH = 32 and LEN_WIDTH = 64 give the same registers before finalization
and the same H after it. -/
def Obligations.BothLenWidthsAgreeBelowTheCeiling : Prop :=
  ∀ m : List Byte, m.length < 2 ^ 29 →
    let c := (Context.init .w32).absorbAll m
    let d := (Context.init .w64).absorbAll m
    c.h = d.h ∧ c.buf = d.buf ∧ c.idx = d.idx ∧ c.bitlen.toNat = d.bitlen.toNat ∧ c.finalize.h = d.finalize.h

/-! ### Status codes, errors and flags -/

/-- R18 and R89: the codes, none of them above 4, and that a stored error's status has the code CORR holds. -/
def Obligations.StatusCodesAreAsTabled : Prop :=
  Status.ok.code = 0b000 ∧ Status.nullArgument.code = 0b001 ∧ Status.stateError.code = 0b010 ∧
  Status.corrupted.code = 0b011 ∧ Status.illegalCommand.code = 0b100 ∧
  Corr.none.bits = 0b00 ∧ Corr.stateError.bits = 0b10 ∧ Corr.corrupted.bits = 0b11 ∧
  (∀ st : Status, st.code.toNat ≤ 4) ∧
  (∀ (c : Corr) (st : Status), c.stored = some st → st.code.toNat = c.bits.toNat)

/-- R93: the full state change of each error. An INPUT of bytes that finds FIN = 1 stores STATE_ERROR, changes nothing
else of the context, and completes with it. Every other command that does not complete with OK changes no context
field. No command that does not complete with OK absorbs a byte or emits a digest byte. -/
def Obligations.ErrorsChangeNothingButCorr : Prop :=
  ∀ (s s' : State) (t : Transaction) (rest : List HostMove), s.port = .transaction t :: rest → step s = .next s' →
    let late : Prop := s.ctx.fin = true ∧ ∃ len, len ≠ 0#32 ∧ decode t.cmdBeats = .instr (.input true len)
    (late → s'.ctx = { s.ctx with corr := .stateError } ∧ s'.trace.getLast? = some (.rsp .stateError)) ∧
    ∀ st, s'.trace.getLast? = some (.rsp st) → st ≠ .ok →
      s'.trace = s.trace ++ t.cmdBeats.map .cmd ++ t.data.map .din ++ [.rsp st] ∧
      (¬late → s'.ctx = s.ctx)

/-- R94: a stored error persists through every command but RESET. INPUT of bytes and RESULT return it, RESET clears it,
and the paths that do not consult CORR keep their own results. The premise is the invariant that every step keeps
(`StepKeepsTheInvariants`): 93_implementation_defined.md A-6 gives the unreachable CORRUPTED with FIN = 1 another
behaviour. -/
def Obligations.StoredErrorPersistsUntilReset : Prop :=
  ∀ s : State, s.ctx.Inv → s.ctx.corr ≠ .none →
    (∀ (i : Instr) (t : State), (∀ b, i ≠ .reset b) → exec i s = .next t → t.ctx.corr = s.ctx.corr) ∧
    (execIllegal s).ctx.corr = s.ctx.corr ∧
    (∃ st, s.ctx.corr.stored = some st ∧
      (∀ len : Word, len ≠ 0#32 → s.din.length = len.toNat →
        ∃ t, exec (.input true len) s = .next t ∧ t.trace.getLast? = some (.rsp st)) ∧
      ∃ t, exec (.result true) s = .next t ∧ t.trace.getLast? = some (.rsp st)) ∧
    (∀ b, ∃ t, exec (.reset b) s = .next t ∧ t.ctx.corr = .none) ∧
    (s.din = [] → ∃ t, exec (.input true 0#32) s = .next t ∧ t.trace.getLast? = some (.rsp .ok)) ∧
    (∃ t, exec (.input false 0#32) s = .next t ∧ t.trace.getLast? = some (.rsp .ok)) ∧
    (∀ len : Word, len ≠ 0#32 →
      ∃ t, exec (.input false len) s = .next t ∧ t.trace.getLast? = some (.rsp .nullArgument)) ∧
    (∃ t, exec (.result false) s = .next t ∧ t.trace.getLast? = some (.rsp .nullArgument))

/-- R18, R91: no step stores CORRUPTED, and from a state that does not hold it no step returns that status. -/
def Obligations.CorruptedIsNeverStored : Prop :=
  ∀ s s' : State, s.ctx.corr ≠ .corrupted → step s = .next s' →
    s'.ctx.corr ≠ .corrupted ∧ s'.trace.count (.rsp .corrupted) = s.trace.count (.rsp .corrupted)

/-- R19: the complete list of the writers of FIN and CORR. -/
def Obligations.FlagWritersAreAsListed : Prop :=
  (∀ (i : Instr) (s t : State), exec i s = .next t →
    (t.ctx.fin ≠ s.ctx.fin →
      (t.ctx.fin = true ∧ i = .result true ∧ s.ctx.corr = .none) ∨ (t.ctx.fin = false ∧ ∃ b, i = .reset b)) ∧
    (t.ctx.corr ≠ s.ctx.corr →
      (t.ctx.corr = .stateError ∧ s.ctx.fin = true ∧ ∃ len, len ≠ 0#32 ∧ i = .input true len) ∨
      (t.ctx.corr = .none ∧ ∃ b, i = .reset b))) ∧
  (∀ s : State, (execIllegal s).ctx = s.ctx)

/-- R11: H is written by RESET, by an INPUT that fills a block, and by the RESULT that finalizes, and by no other
command. -/
def Obligations.HashRegisterWritersAreAsListed : Prop :=
  ∀ (i : Instr) (s t : State), exec i s = .next t → t.ctx.h ≠ s.ctx.h →
    (∃ b, i = .reset b) ∨
    (∃ len, i = .input true len ∧ 64 ≤ s.ctx.idx.val + len.toNat ∧ s.ctx.fin = false ∧ s.ctx.corr = .none) ∨
    (i = .result true ∧ s.ctx.fin = false ∧ s.ctx.corr = .none)

/-! ### Invariants of the whole machine -/

/-- R22: every step keeps the invariants, whatever the host does. -/
def Obligations.StepKeepsTheInvariants : Prop :=
  ∀ s s' : State, s.Inv → step s = .next s' → s'.Inv

/-- R22: the invariants hold after power-on reset, for either LEN_WIDTH. -/
def Obligations.ResetMeetsTheInvariants : Prop :=
  ∀ w : LenWidth, (State.resetOf w).Inv

/-- R5: LEN_WIDTH is a parameter of the instance: no step changes it. -/
def Obligations.LenWidthIsFixed : Prop :=
  ∀ s s' : State, step s = .next s' → s'.ctx.bitlen.lenWidth = s.ctx.bitlen.lenWidth

/-- R14, R23: two states that differ only in stale BUF bytes are not told apart by any sequence of host moves: they
take the same outcomes, put out the same beats, and go on differing in stale bytes only. -/
def Obligations.StaleBytesAreUnobservable : Prop :=
  ∀ (k : Nat) (s t : State), s.StaleEq t →
    (∀ s', RunsTo s k s' → ∃ t', RunsTo t k t' ∧ s'.StaleEq t') ∧
    (∀ r, runSteps k s = .refused r → runSteps k t = .refused r)

/-- R42: a step of one instance takes the outcome that instance alone takes, be it a next state or a refusal, and leaves
every other instance as it was. A step never faults (log 17). How a system is composed is the model's choice
(log 10). -/
def Obligations.InstancesAreIndependent : Prop :=
  ∀ (n : Nat) (k : Fin (n + 1)) (sys : System n),
    (∀ s : State, step sys.engines[k] = .next s →
      ∃ sys', System.stepEngine k sys = .next sys' ∧ sys'.engines[k] = s ∧
        ∀ j : Fin (n + 1), j ≠ k → sys'.engines[j] = sys.engines[j]) ∧
    (∀ r : Refusal, step sys.engines[k] = .refused r → System.stepEngine k sys = .refused r)
end

