-- ==== Sys2Proof/Laws/State.lean ====
section
/-! SUPPORT. One lemma per field per update of State and Context. -/

namespace Sys2Proof.Machine

@[simp] theorem State.complete_ctx (st : Status) (s : State) : (s.complete st).ctx = s.ctx := rfl
@[simp] theorem State.complete_fsm (st : Status) (s : State) : (s.complete st).fsm = .idle := rfl
@[simp] theorem State.complete_port (st : Status) (s : State) : (s.complete st).port = s.port := rfl
@[simp] theorem State.complete_din (st : Status) (s : State) : (s.complete st).din = s.din := rfl
@[simp] theorem State.complete_trace (st : Status) (s : State) : (s.complete st).trace = s.trace ++ [.rsp st] := rfl

@[simp] theorem State.receive_ctx (t : Transaction) (s : State) : (s.receive t).ctx = s.ctx := rfl
@[simp] theorem State.receive_fsm (t : Transaction) (s : State) : (s.receive t).fsm = s.fsm := rfl
@[simp] theorem State.receive_port (t : Transaction) (s : State) : (s.receive t).port = s.port := rfl
@[simp] theorem State.receive_din (t : Transaction) (s : State) : (s.receive t).din = t.data := rfl
@[simp] theorem State.receive_trace (t : Transaction) (s : State) : (s.receive t).trace = s.trace ++ t.cmdBeats.map .cmd := rfl

@[simp] theorem State.takeDataPhase_ctx (s : State) : (s.takeDataPhase).ctx = s.ctx := rfl
@[simp] theorem State.takeDataPhase_fsm (s : State) : (s.takeDataPhase).fsm = s.fsm := rfl
@[simp] theorem State.takeDataPhase_port (s : State) : (s.takeDataPhase).port = s.port := rfl
@[simp] theorem State.takeDataPhase_din (s : State) : (s.takeDataPhase).din = [] := rfl
@[simp] theorem State.takeDataPhase_trace (s : State) : (s.takeDataPhase).trace = s.trace ++ s.din.map .din := rfl

@[simp] theorem State.emitDigest_ctx (s : State) : (s.emitDigest).ctx = s.ctx := rfl
@[simp] theorem State.emitDigest_fsm (s : State) : (s.emitDigest).fsm = s.fsm := rfl
@[simp] theorem State.emitDigest_port (s : State) : (s.emitDigest).port = s.port := rfl
@[simp] theorem State.emitDigest_din (s : State) : (s.emitDigest).din = s.din := rfl
@[simp] theorem State.emitDigest_trace (s : State) : (s.emitDigest).trace = s.trace ++ (digest s.ctx.h).map .dout := rfl

@[simp] theorem State.setCtx_ctx (c : Context) (s : State) : (s.setCtx c).ctx = c := rfl
@[simp] theorem State.setCtx_fsm (c : Context) (s : State) : (s.setCtx c).fsm = s.fsm := rfl
@[simp] theorem State.setCtx_port (c : Context) (s : State) : (s.setCtx c).port = s.port := rfl
@[simp] theorem State.setCtx_din (c : Context) (s : State) : (s.setCtx c).din = s.din := rfl
@[simp] theorem State.setCtx_trace (c : Context) (s : State) : (s.setCtx c).trace = s.trace := rfl

@[simp] theorem State.setFsm_ctx (f : FsmState) (s : State) : (s.setFsm f).ctx = s.ctx := rfl
@[simp] theorem State.setFsm_fsm (f : FsmState) (s : State) : (s.setFsm f).fsm = f := rfl
@[simp] theorem State.setFsm_port (f : FsmState) (s : State) : (s.setFsm f).port = s.port := rfl
@[simp] theorem State.setFsm_din (f : FsmState) (s : State) : (s.setFsm f).din = s.din := rfl
@[simp] theorem State.setFsm_trace (f : FsmState) (s : State) : (s.setFsm f).trace = s.trace := rfl

@[simp] theorem State.powerOn_ctx (s : State) : (s.powerOn).ctx = .init s.ctx.bitlen.lenWidth := rfl
@[simp] theorem State.powerOn_fsm (s : State) : (s.powerOn).fsm = .idle := rfl
@[simp] theorem State.powerOn_port (s : State) : (s.powerOn).port = s.port := rfl
@[simp] theorem State.powerOn_din (s : State) : (s.powerOn).din = [] := rfl
@[simp] theorem State.powerOn_trace (s : State) : (s.powerOn).trace = s.trace := rfl

@[simp] theorem Context.storeStateError_h (c : Context) : (c.storeStateError).h = c.h := rfl
@[simp] theorem Context.storeStateError_buf (c : Context) : (c.storeStateError).buf = c.buf := rfl
@[simp] theorem Context.storeStateError_idx (c : Context) : (c.storeStateError).idx = c.idx := rfl
@[simp] theorem Context.storeStateError_bitlen (c : Context) : (c.storeStateError).bitlen = c.bitlen := rfl
@[simp] theorem Context.storeStateError_fin (c : Context) : (c.storeStateError).fin = c.fin := rfl
@[simp] theorem Context.storeStateError_corr (c : Context) : (c.storeStateError).corr = .stateError := rfl

@[simp] theorem Context.blockDone_h (c : Context) : (c.blockDone).h = compress c.h c.buf := rfl
@[simp] theorem Context.blockDone_buf (c : Context) : (c.blockDone).buf = c.buf := rfl
@[simp] theorem Context.blockDone_idx (c : Context) : (c.blockDone).idx = 0 := rfl
@[simp] theorem Context.blockDone_bitlen (c : Context) : (c.blockDone).bitlen = c.bitlen := rfl
@[simp] theorem Context.blockDone_fin (c : Context) : (c.blockDone).fin = c.fin := rfl
@[simp] theorem Context.blockDone_corr (c : Context) : (c.blockDone).corr = c.corr := rfl

@[simp] theorem Context.markEnd_h (c : Context) : (c.markEnd).h = c.h := rfl
@[simp] theorem Context.markEnd_buf (c : Context) : (c.markEnd).buf = c.buf.set c.idx.val 0x80#8 := rfl
@[simp] theorem Context.markEnd_idx (c : Context) : (c.markEnd).idx = c.idx := rfl
@[simp] theorem Context.markEnd_bitlen (c : Context) : (c.markEnd).bitlen = c.bitlen := rfl
@[simp] theorem Context.markEnd_fin (c : Context) : (c.markEnd).fin = c.fin := rfl
@[simp] theorem Context.markEnd_corr (c : Context) : (c.markEnd).corr = c.corr := rfl

@[simp] theorem Context.zeroFill_h (lo hi : Nat) (c : Context) : (c.zeroFill lo hi).h = c.h := rfl
@[simp] theorem Context.zeroFill_buf (lo hi : Nat) (c : Context) : (c.zeroFill lo hi).buf = zeroBytes c.buf lo hi := rfl
@[simp] theorem Context.zeroFill_idx (lo hi : Nat) (c : Context) : (c.zeroFill lo hi).idx = c.idx := rfl
@[simp] theorem Context.zeroFill_bitlen (lo hi : Nat) (c : Context) : (c.zeroFill lo hi).bitlen = c.bitlen := rfl
@[simp] theorem Context.zeroFill_fin (lo hi : Nat) (c : Context) : (c.zeroFill lo hi).fin = c.fin := rfl
@[simp] theorem Context.zeroFill_corr (lo hi : Nat) (c : Context) : (c.zeroFill lo hi).corr = c.corr := rfl

@[simp] theorem Context.writeLength_h (c : Context) : (c.writeLength).h = c.h := by unfold Context.writeLength; rfl
@[simp] theorem Context.writeLength_buf (c : Context) : (c.writeLength).buf = writeBytes c.buf 56 (bytes64 c.bitlen.toField) := by unfold Context.writeLength; rfl
@[simp] theorem Context.writeLength_idx (c : Context) : (c.writeLength).idx = c.idx := by unfold Context.writeLength; rfl
@[simp] theorem Context.writeLength_bitlen (c : Context) : (c.writeLength).bitlen = c.bitlen := by unfold Context.writeLength; rfl
@[simp] theorem Context.writeLength_fin (c : Context) : (c.writeLength).fin = c.fin := by unfold Context.writeLength; rfl
@[simp] theorem Context.writeLength_corr (c : Context) : (c.writeLength).corr = c.corr := by unfold Context.writeLength; rfl

@[simp] theorem Context.clearSpent_h (c : Context) : (c.clearSpent).h = c.h := rfl
@[simp] theorem Context.clearSpent_buf (c : Context) : (c.clearSpent).buf = Vector.replicate 64 0#8 := rfl
@[simp] theorem Context.clearSpent_idx (c : Context) : (c.clearSpent).idx = c.idx := rfl
@[simp] theorem Context.clearSpent_bitlen (c : Context) : (c.clearSpent).bitlen = c.bitlen.clear := rfl
@[simp] theorem Context.clearSpent_fin (c : Context) : (c.clearSpent).fin = true := rfl
@[simp] theorem Context.clearSpent_corr (c : Context) : (c.clearSpent).corr = c.corr := rfl

@[simp] theorem Context.init_h (w : LenWidth) : (Context.init w).h = initialHash := rfl
@[simp] theorem Context.init_buf (w : LenWidth) : (Context.init w).buf = Vector.replicate 64 0#8 := rfl
@[simp] theorem Context.init_idx (w : LenWidth) : (Context.init w).idx = 0 := rfl
@[simp] theorem Context.init_bitlen (w : LenWidth) : (Context.init w).bitlen = .zero w := rfl
@[simp] theorem Context.init_fin (w : LenWidth) : (Context.init w).fin = false := rfl
@[simp] theorem Context.init_corr (w : LenWidth) : (Context.init w).corr = .none := rfl

@[simp] theorem BitLen.lenWidth_zero (w : LenWidth) : (BitLen.zero w).lenWidth = w := by cases w <;> rfl

@[simp] theorem BitLen.lenWidth_add8 (b : BitLen) : b.add8.lenWidth = b.lenWidth := by cases b <;> rfl

@[simp] theorem BitLen.lenWidth_clear (b : BitLen) : b.clear.lenWidth = b.lenWidth := by cases b <;> rfl

@[simp] theorem BitLen.toNat_zero (w : LenWidth) : (BitLen.zero w).toNat = 0 := by cases w <;> rfl

@[simp] theorem BitLen.toNat_clear (b : BitLen) : b.clear.toNat = 0 := by cases b <;> rfl

theorem BitLen.toNat_lt (b : BitLen) : b.toNat < 2 ^ b.lenWidth.bits := by
  cases b with
  | w32 v => exact v.isLt
  | w64 v => exact v.isLt

/-- The accumulator adds 8 modulo 2^LEN_WIDTH (R62). -/
theorem BitLen.toNat_add8 (b : BitLen) : b.add8.toNat = (b.toNat + 8) % 2 ^ b.lenWidth.bits := by
  cases b <;> simp [BitLen.add8, BitLen.toNat, BitLen.lenWidth, LenWidth.bits]

/-- The width and the number determine the accumulator. -/
theorem BitLen.ext_toNat {a b : BitLen} (hw : a.lenWidth = b.lenWidth) (hn : a.toNat = b.toNat) : a = b := by
  cases a <;> cases b <;> simp_all [BitLen.lenWidth, BitLen.toNat, BitVec.toNat_inj]

/-- The length field is the accumulator's number (R83). -/
theorem BitLen.toNat_toField (b : BitLen) : b.toField.toNat = b.toNat := by
  cases b with
  | w32 v => simp [BitLen.toField, BitLen.toNat]; omega
  | w64 v => rfl

/-- Two contexts with equal fields are equal. -/
theorem Context.ext_fields {c d : Context} (hh : c.h = d.h) (hb : c.buf = d.buf) (hi : c.idx = d.idx)
    (hl : c.bitlen = d.bitlen) (hf : c.fin = d.fin) (hc : c.corr = d.corr) : c = d := by
  cases c; cases d; simp_all

/-- Two states with equal fields are equal. -/
theorem State.ext_fields {s t : State} (hc : s.ctx = t.ctx) (hf : s.fsm = t.fsm) (hp : s.port = t.port)
    (hd : s.din = t.din) (ht : s.trace = t.trace) : s = t := by
  cases s; cases t; simp_all

end Sys2Proof.Machine
end

