-- ==== Sys2Proof/Laws/Buffer.lean ====
section
/-! SUPPORT. What the byte writes to BUF do, byte by byte. -/

namespace Sys2Proof.Machine

/-- Everything `writeBytes` does: the written bytes, in order, and every other byte as it was. -/
theorem getElem_writeBytes (buf : Vector Byte 64) (lo : Nat) (bs : List Byte) (j : Nat) (hj : j < 64) :
    (writeBytes buf lo bs)[j] = if lo ≤ j ∧ j < lo + bs.length then bs.getD (j - lo) 0#8 else buf[j] := by
  induction bs generalizing buf lo with
  | nil =>
    have : ¬(lo ≤ j ∧ j < lo) := by omega
    simp [writeBytes, this]
  | cons b bs ih =>
    rw [writeBytes, ih]
    simp only [List.length_cons, Vector.getElem_setIfInBounds]
    by_cases h1 : lo = j
    · subst h1
      have : ¬(lo + 1 ≤ lo) := by omega
      simp [this]
    · by_cases h2 : lo + 1 ≤ j ∧ j < lo + 1 + bs.length
      · have h3 : lo ≤ j ∧ j < lo + (bs.length + 1) := by omega
        have h4 : j - lo = (j - (lo + 1)) + 1 := by omega
        rw [if_pos h2, if_pos h3, h4]
        simp
      · have h3 : ¬(lo ≤ j ∧ j < lo + (bs.length + 1)) := by omega
        rw [if_neg h2, if_neg h3]
        simp [h1]

/-- Everything `zeroBytes` does: BUF[lo..hi-1] is zero and every other byte as it was. -/
theorem getElem_zeroBytes (buf : Vector Byte 64) (lo hi : Nat) (j : Nat) (hj : j < 64) :
    (zeroBytes buf lo hi)[j] = if lo ≤ j ∧ j < hi then 0#8 else buf[j] := by
  rw [zeroBytes, getElem_writeBytes]
  simp only [List.length_replicate]
  by_cases h : lo ≤ j ∧ j < hi
  · have h' : lo ≤ j ∧ j < lo + (hi - lo) := by omega
    have h2 : j - lo < hi - lo := by omega
    rw [if_pos h, if_pos h']
    simp [List.getD, h2]
  · have h' : ¬(lo ≤ j ∧ j < lo + (hi - lo)) := by omega
    rw [if_neg h, if_neg h']

@[simp] theorem length_bytes64 (v : BitVec 64) : (bytes64 v).length = 8 := rfl

/-- Everything the write of the length field does (R83). -/
theorem getElem_writeField (buf : Vector Byte 64) (v : BitVec 64) (j : Nat) (hj : j < 64) :
    (writeBytes buf 56 (bytes64 v))[j] = if 56 ≤ j then (bytes64 v).getD (j - 56) 0#8 else buf[j] := by
  rw [getElem_writeBytes, length_bytes64]
  have : (56 ≤ j ∧ j < 56 + 8) ↔ 56 ≤ j := by omega
  simp only [this]

@[simp] theorem length_bytes32 (w : Word) : (bytes32 w).length = 4 := rfl

@[simp] theorem length_digest (h : Vector Word 5) : (digest h).length = 20 := by
  simp [digest, List.length_flatMap]

end Sys2Proof.Machine
end

