-- ==== Sys2Proof/Laws/Decode.lean ====
section
/-! SUPPORT. The fields of an encoded command word. -/

namespace Sys2Proof

@[simp] theorem opField_commandWord (op : BitVec 2) (bufp : Bool) : opField (commandWord op bufp) = op := by
  revert op bufp; decide

@[simp] theorem bufpField_commandWord (op : BitVec 2) (bufp : Bool) : bufpField (commandWord op bufp) = bufp := by
  revert op bufp; decide

@[simp] theorem rsvdField_commandWord (op : BitVec 2) (bufp : Bool) : rsvdField (commandWord op bufp) = 0#29 := by
  revert op bufp; decide

/-- The fields as numbers. -/
theorem opField_toNat (cmd : Word) : (opField cmd).toNat = cmd.toNat % 4 := by
  simp [opField, BitVec.extractLsb'_toNat]

theorem rsvdField_toNat (cmd : Word) : (rsvdField cmd).toNat = cmd.toNat / 8 := by
  have := cmd.isLt
  simp only [rsvdField, BitVec.extractLsb'_toNat, Nat.shiftRight_eq_div_pow]
  omega

end Sys2Proof
end

