-- ==== Sys2Proof/Laws/Input.lean ====
section
/-! SUPPORT. What ABSORB and INPUT do. -/

namespace Sys2Proof.Machine

@[simp] theorem Context.absorb_fin (c : Context) (b : Byte) : (c.absorb b).fin = c.fin := by
  unfold Context.absorb; split <;> rfl

@[simp] theorem Context.absorb_corr (c : Context) (b : Byte) : (c.absorb b).corr = c.corr := by
  unfold Context.absorb; split <;> rfl

@[simp] theorem Context.absorb_buf (c : Context) (b : Byte) : (c.absorb b).buf = c.buf.set c.idx.val b := by
  unfold Context.absorb; split <;> rfl

@[simp] theorem Context.absorb_bitlen (c : Context) (b : Byte) : (c.absorb b).bitlen = c.bitlen.add8 := by
  unfold Context.absorb; split <;> rfl

@[simp] theorem Context.absorb_h (c : Context) (b : Byte) :
    (c.absorb b).h = if c.idx = 63 then compress c.h (c.buf.set c.idx.val b) else c.h := by
  unfold Context.absorb; split <;> rfl

/-- IDX goes up by one and from 63 back to 0 (R60). -/
theorem Context.absorb_idx (c : Context) (b : Byte) : (c.absorb b).idx.val = (c.idx.val + 1) % 64 := by
  unfold Context.absorb
  split
  · next h => simp [Context.blockDone, h]
  · simp [Fin.val_add]

@[simp] theorem Context.absorbAll_nil (c : Context) : c.absorbAll [] = c := rfl

@[simp] theorem Context.absorbAll_cons (c : Context) (b : Byte) (bs : List Byte) :
    c.absorbAll (b :: bs) = (c.absorb b).absorbAll bs := rfl

theorem Context.absorbAll_append (c : Context) (as bs : List Byte) :
    c.absorbAll (as ++ bs) = (c.absorbAll as).absorbAll bs := List.foldl_append

@[simp] theorem Context.absorbAll_fin (c : Context) (bs : List Byte) : (c.absorbAll bs).fin = c.fin := by
  induction bs generalizing c with
  | nil => rfl
  | cons b bs ih => simp [ih]

@[simp] theorem Context.absorbAll_corr (c : Context) (bs : List Byte) : (c.absorbAll bs).corr = c.corr := by
  induction bs generalizing c with
  | nil => rfl
  | cons b bs ih => simp [ih]

@[simp] theorem Context.absorbAll_lenWidth (c : Context) (bs : List Byte) :
    (c.absorbAll bs).bitlen.lenWidth = c.bitlen.lenWidth := by
  induction bs generalizing c with
  | nil => rfl
  | cons b bs ih => simp [ih]

/-- What an INPUT that answers a next state has done: its framing was right, and one of the five ways through the
checks of R59 was taken. -/
theorem execInput_next {bufp : Bool} {len : Word} {s t : State} (h : execInput bufp len s = .next t) :
    (bufp = true → s.din.length = len.toNat) ∧
      ((len = 0#32 ∧ t = (if bufp then s.takeDataPhase else s).complete .ok) ∨
       (len ≠ 0#32 ∧ bufp = false ∧ t = s.complete .nullArgument) ∨
       (len ≠ 0#32 ∧ bufp = true ∧ s.ctx.fin = true ∧
          t = (s.takeDataPhase.setCtx s.ctx.storeStateError).complete .stateError) ∨
       (len ≠ 0#32 ∧ bufp = true ∧ s.ctx.fin = false ∧
          ∃ e, s.ctx.corr.stored = some e ∧ t = s.takeDataPhase.complete e) ∨
       (len ≠ 0#32 ∧ bufp = true ∧ s.ctx.fin = false ∧ s.ctx.corr = .none ∧
          t = (s.takeDataPhase.setCtx (s.ctx.absorbAll s.din)).complete .ok)) := by
  unfold execInput at h
  split at h
  · cases h
  · next hlen =>
    refine ⟨fun hb => by_contra fun hn => hlen ⟨hb, hn⟩, ?_⟩
    dsimp only at h
    split at h
    · next h0 => exact .inl ⟨h0, (Host.Outcome.next.inj h).symm⟩
    · next h0 =>
      split at h
      · next hb => subst hb; exact .inr (.inl ⟨h0, rfl, (Host.Outcome.next.inj h).symm⟩)
      · next hb =>
        have hb' : bufp = true := by simpa using hb
        subst hb'
        split at h
        · next hf => exact .inr (.inr (.inl ⟨h0, rfl, hf, (Host.Outcome.next.inj h).symm⟩))
        · next hf =>
          have hf' : s.ctx.fin = false := by simpa using hf
          split at h
          · next e he => exact .inr (.inr (.inr (.inl ⟨h0, rfl, hf', e, he, (Host.Outcome.next.inj h).symm⟩)))
          · next he =>
            have hc : s.ctx.corr = .none := by
              cases hcor : s.ctx.corr <;> simp_all [Corr.stored]
            exact .inr (.inr (.inr (.inr ⟨h0, rfl, hf', hc, (Host.Outcome.next.inj h).symm⟩)))

end Sys2Proof.Machine
end

