-- ==== Sys2Proof/Laws/PerInstr.lean ====
section
/-! SUPPORT. Statements about every command as syntax, one lemma per constructor. -/

namespace Sys2Proof.Laws

/-- The beats a command encodes to are the start of a well-formed transaction: with a data phase of the length it
announces, they make one (30_encoding.md R45). -/
def EncodesFramedBeats.Statement (i : Instr) : Prop :=
  ∀ data : List Byte,
    data.length = (match i with
      | .reset _ => 0
      | .input bufp len => if bufp then len.toNat else 0
      | .result _ => 0) →
    Transaction.wellFormed ⟨encode i, data⟩ = true

theorem EncodesFramedBeats.reset (bufp : Bool) : EncodesFramedBeats.Statement (.reset bufp) := by
  intro data h
  have hd : data = [] := List.length_eq_zero_iff.mp h
  subst hd
  cases bufp <;> decide

theorem EncodesFramedBeats.input (bufp : Bool) (len : Word) : EncodesFramedBeats.Statement (.input bufp len) := by
  intro data h
  have hop : (commandWord 0b01#2 bufp).extractLsb' 0 2 = 1#2 := opField_commandWord 0b01#2 bufp
  have hb : (commandWord 0b01#2 bufp).getLsbD 2 = bufp := bufpField_commandWord 0b01#2 bufp
  simp only [encode, Transaction.wellFormed, hop, hb, beq_self_eq_true, Bool.true_and, beq_iff_eq]
  exact h

theorem EncodesFramedBeats.result (bufp : Bool) : EncodesFramedBeats.Statement (.result bufp) := by
  intro data h
  have hd : data = [] := List.length_eq_zero_iff.mp h
  subst hd
  cases bufp <;> decide

end Sys2Proof.Laws
end

