-- ==== Sys2Proof/Laws/Result.lean ====
section
/-! SUPPORT. What the transitions of the padding FSM and RESULT do. -/

namespace Sys2Proof.Machine

/-- Each transition of the FSM, by the state it leaves (R77). -/
theorem padStep_mark (p : Nat) (s : State) : padStep ⟨p, s.setFsm .mark⟩ =
    ⟨s.ctx.idx.val + 1, (s.setCtx s.ctx.markEnd).setFsm (if s.ctx.needsExtraBlock then .fillTail else .fillLen)⟩ := rfl

theorem padStep_fillTail (p : Nat) (s : State) : padStep ⟨p, s.setFsm .fillTail⟩ =
    ⟨max p 64, (s.setCtx (s.ctx.zeroFill p 64)).setFsm .compExtra⟩ := rfl

theorem padStep_compExtra (p : Nat) (s : State) : padStep ⟨p, s.setFsm .compExtra⟩ =
    ⟨0, (s.setCtx s.ctx.blockDone).setFsm .fillLen⟩ := rfl

theorem padStep_fillLen (p : Nat) (s : State) : padStep ⟨p, s.setFsm .fillLen⟩ =
    ⟨max p 56, (s.setCtx (s.ctx.zeroFill p 56)).setFsm .len⟩ := rfl

theorem padStep_len (p : Nat) (s : State) : padStep ⟨p, s.setFsm .len⟩ =
    ⟨p, (s.setCtx s.ctx.writeLength).setFsm .compFinal⟩ := rfl

theorem padStep_compFinal (p : Nat) (s : State) : padStep ⟨p, s.setFsm .compFinal⟩ =
    ⟨p, (s.setCtx s.ctx.blockDone).setFsm .clear⟩ := rfl

theorem padStep_clear (p : Nat) (s : State) : padStep ⟨p, s.setFsm .clear⟩ =
    ⟨p, (s.setCtx s.ctx.clearSpent).setFsm .out⟩ := rfl

theorem padStep_out (p : Nat) (s : State) : padStep ⟨p, s.setFsm .out⟩ =
    ⟨p, (s.setFsm .out).emitDigest.complete .ok⟩ := rfl

@[simp] theorem padRun_zero (r : PadRun) : padRun 0 r = r := rfl

theorem padRun_succ (n : Nat) (r : PadRun) : padRun (n + 1) r = padRun n (padStep r) := rfl

/-- F_IDLE is left by no transition of a run (R77). -/
theorem padRun_idle (n : Nat) (r : PadRun) (h : r.s.fsm = .idle) : padRun n r = r := by
  induction n with
  | zero => rfl
  | succ n ih =>
    have : padStep r = r := by unfold padStep; rw [h]
    rw [padRun_succ, this, ih]

theorem padRun_add (m n : Nat) (r : PadRun) : padRun (m + n) r = padRun n (padRun m r) := by
  induction m generalizing r with
  | zero => simp
  | succ m ih => rw [Nat.succ_add, padRun_succ, padRun_succ, ih]

/-- A run is its first `n` transitions and one more. -/
theorem padRun_succ_last (n : Nat) (r : PadRun) : padRun (n + 1) r = padStep (padRun n r) := by
  rw [padRun_add]; rfl

/-- What a RESULT that answers a next state has done (R76). -/
theorem execResult_next {bufp : Bool} {s t : State} (h : execResult bufp s = .next t) :
    (bufp = false ∧ t = s.complete .nullArgument) ∨
    (bufp = true ∧ ∃ e, s.ctx.corr.stored = some e ∧ t = s.complete e) ∨
    (bufp = true ∧ s.ctx.corr = .none ∧
      t = (padRun padTransitions ⟨0, s.setFsm (if s.ctx.fin then .out else .mark)⟩).s) := by
  unfold execResult at h
  split at h
  · next hb => exact .inl ⟨hb, by cases h; rfl⟩
  · next hb =>
    have hb' : bufp = true := by simpa using hb
    split at h
    · next e he => exact .inr (.inl ⟨hb', e, he, by cases h; rfl⟩)
    · next he =>
      refine .inr (.inr ⟨hb', ?_, by cases h; rfl⟩)
      cases hcor : s.ctx.corr <;> simp_all [Corr.stored]

end Sys2Proof.Machine
end

