-- ==== Sys2Proof/Laws/Port.lean ====
section
/-! SUPPORT. What a step can do. -/

namespace Sys2Proof.Machine

/-- Every way a transaction can answer a next state: an instruction is performed, or an illegal command word is
completed (R51, R52). -/
theorem runTransaction_next {t : Transaction} {s s' : State} (h : runTransaction t s = .next s') :
    (∃ i, decode t.cmdBeats = .instr i ∧ t.data.length = dataBeats i ∧ exec i (s.receive t) = .next s') ∨
    (∃ n, decode t.cmdBeats = .reject (.illegalCommand n) ∧ t.data.length = n ∧ s' = execIllegal (s.receive t)) := by
  unfold runTransaction at h
  split at h
  · next i hi =>
    split at h
    · next hl => exact .inl ⟨i, hi, hl, h⟩
    · cases h
  · next n hn =>
    split at h
    · next hl => exact .inr ⟨n, hn, hl, by cases h; rfl⟩
    · cases h
  all_goals cases h

/-- Every way a step can answer a next state. -/
theorem step_next {s s' : State} (h : step s = .next s') :
    (s.port = [] ∧ s' = s) ∨
    (∃ m rest, s.port = m :: rest ∧ hostMove m { s with port := rest } = .next s') := by
  unfold step nextMove at h
  split at h
  · next hp => exact .inl ⟨hp, by cases h; rfl⟩
  · next m rest hp => exact .inr ⟨m, rest, hp, h⟩

end Sys2Proof.Machine
end

