-- ==== Sys2Proof/Laws/Run.lean ====
section
/-! SUPPORT. Runs of the machine. -/

namespace Sys2Proof.Machine

@[simp] theorem runSteps_zero (s : State) : runSteps 0 s = .next s := rfl

/-- A run whose first step answers a next state goes on from there. -/
theorem runSteps_succ {s t : State} (k : Nat) (h : step s = .next t) : runSteps (k + 1) s = runSteps k t := by
  rw [runSteps, h]

/-- A run of `j + k` steps whose first `j` end in `t` is the run of `k` steps from `t`. -/
theorem runSteps_add {s t : State} (j k : Nat) (h : runSteps j s = .next t) : runSteps (j + k) s = runSteps k t := by
  induction j generalizing s with
  | zero => cases h; simp
  | succ j ih =>
    rw [runSteps] at h
    rw [Nat.succ_add, runSteps]
    split at h
    · exact ih h
    · cases h
    · cases h

/-- The runs of claims are those of the machine the host reads. -/
theorem runSteps_eq_run (k : Nat) (s : State) : runSteps k s = Sys2Proof.core.run k s := by
  induction k generalizing s with
  | zero => rfl
  | succ k ih =>
    refine Eq.trans ?_ (Host.Core.run.eq_2 Sys2Proof.core s k).symm
    have hcore : Sys2Proof.core.step s = step s := rfl
    rw [runSteps, hcore]
    cases step s with
    | next t => exact ih t
    | fault r => rfl
    | refused r => rfl

end Sys2Proof.Machine
end

