-- ==== Sys2Proof/Tests/Slice0.lean ====
section
/-! SUPPORT. Tests of the model and, for every obligation with hypotheses, a witness that meets them. Every expected
result is taken from the spec: the encodings of 30_encoding.md and the vectors of 95_test_vectors.md, whose labels the
comments give. -/

open Sys2Proof Sys2Proof.Machine

namespace Sys2Proof.Tests

-- Each test's kernel evaluation ends before the next one starts: in parallel they ask for too many threads.
set_option Elab.async false

/-! ### Helpers -/

/-- `n` bytes 0x61. -/
def as (n : Nat) : List Byte := List.replicate n 0x61#8

/-- "abc" -/
def abc : List Byte := [0x61#8, 0x62#8, 0x63#8]

/-- The context after RESET and `n` bytes 0x61. -/
def absorbed (n : Nat) : Context := (Context.init .w32).absorbAll (as n)

/-- H after RESET; RESULT: the words of the digest of the empty message (L1-1). -/
def emptyHash : Vector Word 5 := #v[0xDA39A3EE, 0x5E6B4B0D, 0x3255BFEF, 0x95601890, 0xAFD80709]

/-- H after the message "abc" (C-1). -/
def abcHash : Vector Word 5 := #v[0xA9993E36, 0x4706816A, 0xBA3E2571, 0x7850C26C, 0x9CD0D89D]

/-- "spent": the context after RESET; RESULT. -/
def spent : Context := { Context.init .w32 with h := emptyHash, fin := true }

/-- The context after a late INPUT (I-4). -/
def failed : Context := { spent with corr := .stateError }

/-- A machine with the context `c`, a data phase and pending moves. -/
def machine (c : Context) (din : List Byte := []) (port : List HostMove := []) : State :=
  { State.reset with ctx := c, din := din, port := port }

/-- The machine after reset with the moves `ms` pending. -/
def pending (ms : List HostMove) : State := machine (Context.init .w32) [] ms

/-- What the tests read of an outcome. -/
def ctxOf : Host.Outcome State Fault Refusal → Option Context
  | .next s => some s.ctx
  | _ => none

def traceOf : Host.Outcome State Fault Refusal → Option (List Beat)
  | .next s => some s.trace
  | _ => none

def refusalOf : Host.Outcome State Fault Refusal → Option Refusal
  | .refused r => some r
  | _ => none

def isNext : Host.Outcome State Fault Refusal → Bool
  | .next _ => true
  | _ => false

/-- An outcome that is a next state is one. -/
theorem next_of_isNext {o : Host.Outcome State Fault Refusal} (h : isNext o = true) : ∃ t, o = .next t := by
  cases o with
  | next t => exact ⟨t, rfl⟩
  | fault r => cases h
  | refused r => cases h

/-! ### WellFormed refuses each ill-formed transaction -/

theorem test_wf_no_beats : Transaction.wellFormed ⟨[], []⟩ = false := by decide
theorem test_wf_len_missing : Transaction.wellFormed ⟨[0x00000005], []⟩ = false := by decide
theorem test_wf_len_surplus : Transaction.wellFormed ⟨[0x00000006, 0], []⟩ = false := by decide
theorem test_wf_three_beats : Transaction.wellFormed ⟨[0x00000005, 0, 0], []⟩ = false := by decide
theorem test_wf_data_short : Transaction.wellFormed ⟨[0x00000005, 2], [0x61]⟩ = false := by decide
theorem test_wf_data_long : Transaction.wellFormed ⟨[0x00000005, 2], abc⟩ = false := by decide
theorem test_wf_data_without_bufp : Transaction.wellFormed ⟨[0x00000001, 1], [0x61]⟩ = false := by decide
theorem test_wf_data_without_len : Transaction.wellFormed ⟨[0x00000000], [0x61]⟩ = false := by decide

/-- The transactions of P1 and P5 are well-formed. -/
theorem test_wf_spec_transactions :
    Transaction.wellFormed ⟨[0x00000000], []⟩ = true ∧ Transaction.wellFormed ⟨[0x00000005, 3], abc⟩ = true ∧
    Transaction.wellFormed ⟨[0x00000006], []⟩ = true ∧ Transaction.wellFormed ⟨[0x00000003], []⟩ = true ∧
    Transaction.wellFormed ⟨[0x0000000D, 3], abc⟩ = true ∧ Transaction.wellFormed ⟨[0x00000001, 4], []⟩ = true := by
  decide

/-! ### Decoding of words written out bit by bit from the patterns of R55 -/

theorem test_decode_reset :
    decode [0b00000000000000000000000000000000#32] = .instr (.reset false) ∧
    decode [0b00000000000000000000000000000100#32] = .instr (.reset true) := by decide

theorem test_decode_input :
    decode [0b00000000000000000000000000000001#32, 0x80000003#32] = .instr (.input false 0x80000003#32) ∧
    decode [0b00000000000000000000000000000101#32, 0x80000003#32] = .instr (.input true 0x80000003#32) := by decide

theorem test_decode_result :
    decode [0b00000000000000000000000000000010#32] = .instr (.result false) ∧
    decode [0b00000000000000000000000000000110#32] = .instr (.result true) := by decide

/-- OP = 0b11, the lowest and the highest reserved bit, and a reserved bit beside OP = 0b01 (D-7, D-9, D-11, D-10). -/
theorem test_decode_illegal :
    decode [0b00000000000000000000000000000011#32] = .reject (.illegalCommand 0) ∧
    decode [0b00000000000000000000000000001000#32] = .reject (.illegalCommand 0) ∧
    decode [0b10000000000000000000000000000000#32] = .reject (.illegalCommand 0) ∧
    decode [0b00000000000000000000000000001101#32, 3#32] = .reject (.illegalCommand 3) := by decide

theorem test_decode_framing :
    decode [] = .reject .noCommandWord ∧ decode [0x00000001#32] = .reject .missingLenWord ∧
    decode [0x00000000#32, 0#32] = .reject .surplusCommandBeat ∧
    decode [0x00000005#32, 0#32, 0#32] = .reject .surplusCommandBeat := by decide

theorem test_decodeTableWord :
    decodeTableWord 32 0x00000000 = some (.reset false) ∧ decodeTableWord 32 0x00000001 = some (.input false 0#32) ∧
    decodeTableWord 32 0x00000002 = some (.result false) ∧ decodeTableWord 32 0x00000003 = none ∧
    decodeTableWord 64 0x0000000700000005 = some (.input true 7#32) := by decide

/-- A table word is the next command performed. -/
theorem test_withFetchWord :
    traceOf (step (State.reset.withFetchWord 32 0x00000001)) = some [.cmd 1#32, .cmd 0#32, .rsp .ok] ∧
    traceOf (step (State.reset.withFetchWord 64 0x0000000100000005)) =
      some [.cmd 5#32, .cmd 1#32, .din 0#8, .rsp .ok] := by decide

/-! ### Primitives and the compression function (95_test_vectors.md 2.1 to 2.4) -/

/-- A-1 to A-5 -/
theorem test_rotl :
    rotl 1 0x80000000 = 0x00000001 ∧ rotl 5 0x67452301 = 0xE8A4602C ∧ rotl 30 0xEFCDAB89 = 0x7BF36AE2 ∧
    rotl 30 0x00000001 = 0x40000000 ∧ rotl 1 0xFFFFFFFF = 0xFFFFFFFF := by decide +kernel

/-- A-9, A-12, A-15, A-18, at the first and last round of a stage -/
theorem test_round_functions :
    roundFunction 19 0xEFCDAB89 0x98BADCFE 0x10325476 = 0x98BADCFE ∧
    roundFunction 20 0xEFCDAB89 0x98BADCFE 0x10325476 = 0x67452301 ∧
    roundFunction 59 0xEFCDAB89 0x98BADCFE 0x10325476 = 0x98BADCFE ∧
    roundFunction 40 0xF0F0F0F0 0xFF00FF00 0x0F0F0F0F = 0xFF00FF00 ∧
    roundFunction 60 0xF0F0F0F0 0xFF00FF00 0x0F0F0F0F = 0x00FF00FF := by decide +kernel

/-- The padded "abc" block (section 2.2). -/
def abcBlock : Vector Byte 64 := ⟨(abc ++ [0x80#8] ++ List.replicate 52 0#8 ++ bytes64 0x18#64).toArray, by decide +kernel⟩

/-- S-1, S-3, S-4, S-7, S-12 -/
theorem test_schedule :
    let w := schedule abcBlock
    w.getD 0 0 = 0x61626380 ∧ w.getD 15 0 = 0x00000018 ∧ w.getD 16 0 = 0xC2C4C700 ∧ w.getD 19 0 = 0x85898E01 ∧
      w.getD 79 0 = 0x822E0879 := by decide +kernel

/-- T-0 -/
theorem test_round_0 :
    roundStep 0 0x61626380 (.load initialHash) =
      ⟨0x0116FC33, 0x67452301, 0x7BF36AE2, 0x98BADCFE, 0x10325476⟩ := by decide +kernel

/-- C-1 -/
theorem test_compress_abc : compress initialHash abcBlock = abcHash := by decide +kernel

/-- C-3 -/
theorem test_compress_zero :
    compress #v[0, 0, 0, 0, 0] (Vector.replicate 64 0#8) =
      #v[0x9E1547ED, 0x57EC91C2, 0x30FA8BC8, 0xC7785A54, 0xA7EFA5E3] := by decide +kernel

/-! ### The commands -/

/-- R-1 -/
theorem test_reset_recovers : ctxOf (exec (.reset false) (machine failed)) = some (.init .w32) := by decide +kernel

/-- R-2: BUFP is ignored. -/
theorem test_reset_mid_message : ctxOf (exec (.reset true) (machine (absorbed 30))) = some (.init .w32) := by decide +kernel

/-- I-10 -/
theorem test_input_abc :
    ((ctxOf (exec (.input true 3) (machine (Context.init .w32) abc))).map
      fun c => (c.idx, c.bitlen, c.buf.toList.take 4, c.h)) =
    some (3, .w32 24, [0x61, 0x62, 0x63, 0x00], initialHash) := by decide +kernel

/-- I-4: STATE_ERROR is stored and the byte is discarded. -/
theorem test_input_late :
    let o := exec (.input true 1) (machine spent [0x78])
    ctxOf o = some failed ∧ traceOf o = some [.din 0x78, .rsp .stateError] := by decide +kernel

/-- I-14: the 32-bit accumulator wraps as the block fills. -/
theorem test_absorb_wraps_32 :
    let c := ({ Context.init .w32 with idx := 63, bitlen := .w32 0xFFFFFFF8 } : Context).absorb 0x00
    c.idx = 0 ∧ c.bitlen = .w32 0 := by decide +kernel

/-- I-15: the 64-bit accumulator does not. -/
theorem test_absorb_carries_64 :
    let c := ({ Context.init .w64 with idx := 63, bitlen := .w64 0x00000000FFFFFFF8 } : Context).absorb 0x00
    c.idx = 0 ∧ c.bitlen = .w64 0x0000000100000000 := by decide +kernel

/-- P1: the digest of "abc" and the spent context. -/
theorem test_result_abc :
    let o := exec (.result true) (machine ((Context.init .w32).absorbAll abc))
    ctxOf o = some { Context.init .w32 with h := abcHash, fin := true } ∧
    (traceOf o).map (·.take 4) = some [.dout 0xA9, .dout 0x99, .dout 0x3E, .dout 0x36] := by decide +kernel

/-- P4: the extra block of a 56-byte message. -/
theorem test_result_extra_block :
    (ctxOf (exec (.result true) (machine (absorbed 56)))).map (·.h) =
      some #v[0xC2DB330F, 0x6083854C, 0x99D4B5BF, 0xB6E8F29F, 0x201BE699] := by decide +kernel

/-- X-4, n = 55: the marker is in BUF[55] and there is no extra block. -/
theorem test_finalize_55 :
    (absorbed 55).finalize.h = #v[0xC1C8BBDC, 0x22796E28, 0xC0E15163, 0xD20899B6, 0x5621D65A] := by decide +kernel

/-- L1-1 -/
theorem test_digest_of_empty_message : messageDigest [] = digest emptyHash := by decide +kernel

/-- D-10 in P5: the framed data is discarded and nothing else changes. -/
theorem test_illegal_with_data :
    let o := step (pending [.transaction ⟨[0x0000000D, 3], abc⟩])
    ctxOf o = some (.init .w32) ∧
    traceOf o = some [.cmd 0x0000000D, .cmd 3, .din 0x61, .din 0x62, .din 0x63, .rsp .illegalCommand] := by decide +kernel

/-- A malformed transaction (A-8). -/
theorem test_short_data_refused :
    refusalOf (step (pending [.transaction ⟨[0x00000005, 2], [0x61]⟩])) = some .dataPhaseLength := by decide +kernel

/-- Power-on reset in the middle of an INPUT (R105). -/
theorem test_power_on_reset_during :
    let o := step (machine (absorbed 30) [] [.powerOnResetDuring ⟨[0x00000005, 3], [0x61]⟩ 0])
    ctxOf o = some (.init .w32) ∧ traceOf o = some [.cmd 5, .cmd 3, .din 0x61] := by decide +kernel

/-- The command line of R56 for `INPUT "a"*2`. -/
theorem test_assemble_repeat :
    (AsmLine.inputRepeat [0x61] 2).assemble = [⟨[0x00000005, 2], [0x61, 0x61]⟩] := by decide +kernel

/-! ### Witnesses of the obligations' hypotheses -/

/-- CommandWordDecodesByItsFields: each clause, with the words at the ends of its range. -/
theorem witness_command_word_fields :
    ((8#32).toNat / 8 ≠ 0 ∧ (0xFFFFFFFF#32).toNat / 8 ≠ 0 ∧ (3#32).toNat % 4 = 3 ∧ (7#32).toNat % 4 = 3) ∧
    ((0#32).toNat / 8 = 0 ∧ (4#32).toNat / 8 = 0 ∧ (0#32).toNat % 4 = 0 ∧ (4#32).toNat % 4 = 0) ∧
    ((1#32).toNat / 8 = 0 ∧ (5#32).toNat / 8 = 0 ∧ (1#32).toNat % 4 = 1 ∧ (5#32).toNat % 4 = 1) ∧
    ((2#32).toNat / 8 = 0 ∧ (6#32).toNat / 8 = 0 ∧ (2#32).toNat % 4 = 2 ∧ (6#32).toNat % 4 = 2) := by decide +kernel

/-- StepPerformsTheDecodedCommand and WellFormedTransactionCompletes, for each of the commands. -/
theorem witness_step_performs :
    (∃ (s : State) (rest : List HostMove), s.port = .transaction ⟨[0x00000000], []⟩ :: rest) ∧
    Transaction.wellFormed ⟨[0x00000000], []⟩ = true ∧ decode [0x00000000] = .instr (.reset false) ∧
    (∃ (s : State) (rest : List HostMove), s.port = .transaction ⟨[0x00000005, 3], abc⟩ :: rest) ∧
    Transaction.wellFormed ⟨[0x00000005, 3], abc⟩ = true ∧ decode [0x00000005, 3] = .instr (.input true 3) ∧
    (∃ (s : State) (rest : List HostMove), s.port = .transaction ⟨[0x00000006], []⟩ :: rest) ∧
    Transaction.wellFormed ⟨[0x00000006], []⟩ = true ∧ decode [0x00000006] = .instr (.result true) :=
  ⟨⟨pending [_], [], rfl⟩, by decide +kernel, by decide +kernel, ⟨pending [_], [], rfl⟩, by decide +kernel, by decide +kernel,
   ⟨pending [_], [], rfl⟩, by decide +kernel, by decide +kernel⟩

/-- WellFormedTransactionCompletes: a RESULT that is OK and one that is not, an INPUT and an illegal word. -/
theorem witness_well_formed_completes :
    (traceOf (step (machine spent [] [.transaction ⟨[0x00000006], []⟩]))).map (·.getLast?) = some (some (.rsp .ok)) ∧
    (traceOf (step (machine failed [] [.transaction ⟨[0x00000006], []⟩]))).map (·.getLast?) =
      some (some (.rsp .stateError)) ∧
    (∃ bufp, decode [0x00000006] = .instr (.result bufp)) ∧
    (∀ bufp, decode [0x00000005, 3] ≠ .instr (.result bufp)) ∧
    Transaction.wellFormed ⟨[0x00000007], []⟩ = true ∧ Transaction.wellFormed ⟨[0x00000009, 3], []⟩ = true :=
  ⟨by decide +kernel, by decide +kernel, ⟨true, by decide +kernel⟩, by decide +kernel, by decide +kernel, by decide +kernel⟩

/-- IllegalCommandCompletes: words illegal by each of the two ways, with and without data. -/
theorem witness_illegal_command :
    (pending [.transaction ⟨[0x0000000D, 3], abc⟩]).port = [.transaction ⟨0x0000000D :: [3], abc⟩] ∧
    Transaction.wellFormed ⟨0x0000000D :: [3], abc⟩ = true ∧ (0x0000000D#32).toNat / 8 ≠ 0 ∧
    (pending [.transaction ⟨[0x00000003], []⟩]).port = [.transaction ⟨0x00000003 :: [], []⟩] ∧
    Transaction.wellFormed ⟨0x00000003 :: [], []⟩ = true ∧ (0x00000003#32).toNat % 4 = 3 := by decide +kernel

/-- MalformedTransactionIsRefused: a transaction without LEN, and an INPUT whose data phase is one byte short. -/
theorem witness_malformed :
    (pending [.transaction ⟨[0x00000005], []⟩]).port = [.transaction ⟨[0x00000005], []⟩] ∧
    Transaction.wellFormed ⟨[0x00000005], []⟩ = false ∧
    (machine (Context.init .w32) abc).din.length ≠ (4#32).toNat := by decide +kernel

/-- IdleBlockKeepsItsState -/
theorem witness_idle : (machine spent).port = [] := by decide +kernel

/-- ResetStateIsAsTabled: both ways to a reset state. -/
theorem witness_reset_state :
    (∃ s : State, s = State.resetOf .w64) ∧ ∃ (s₀ s : State), s₀.ctx.fin = true ∧ exec (.reset true) s₀ = .next s :=
  ⟨⟨_, rfl⟩, machine failed, _, rfl, rfl⟩

/-- PowerOnResetBetweenCommands -/
theorem witness_power_on_reset : (machine failed [] [.powerOnReset]).port = [.powerOnReset] := by decide +kernel

/-- PowerOnResetAbandonsTheCommand: an INPUT cut short before its last byte and after it, an abandoned illegal command,
no beat at all; and a RESULT cut short before the first digest byte and after the last. -/
theorem witness_power_on_reset_during :
    isTransactionStart ⟨[0x00000005, 3], [0x61, 0x62]⟩ = true ∧ isTransactionStart ⟨[0x00000005, 3], abc⟩ = true ∧
    isTransactionStart ⟨[0x0000000D, 3], [0x61]⟩ = true ∧ isTransactionStart ⟨[], []⟩ = true ∧
    (pending [.powerOnResetDuring ⟨[0x00000005, 3], abc⟩ 0]).port = [.powerOnResetDuring ⟨[0x00000005, 3], abc⟩ 0] ∧
    (machine spent [] [.powerOnResetDuring ⟨encode (.result true), []⟩ 20]).port =
      [.powerOnResetDuring ⟨encode (.result true), []⟩ 20] ∧
    (machine spent [] [.powerOnResetDuring ⟨encode (.result true), []⟩ 0]).port =
      [.powerOnResetDuring ⟨encode (.result true), []⟩ 0] ∧
    spent.corr = .none ∧ spent.fin = true ∧ (absorbed 3).corr = .none ∧ (absorbed 3).fin = false := by decide +kernel

/-- InputFollowsItsChecksInOrder: a framed INPUT for each of the six ways through the checks. -/
theorem witness_input_checks :
    ((machine spent []).din.length = (0#32).toNat) ∧
    ((4#32) ≠ 0#32 ∧ (machine spent []).ctx.fin = true) ∧
    ((machine spent [0x78]).din.length = (1#32).toNat ∧ (1#32) ≠ 0#32 ∧ (machine spent [0x78]).ctx.fin = true) ∧
    (∃ c : Context, (machine c [0x78]).din.length = (1#32).toNat ∧ c.fin = false ∧ c.corr = .stateError) ∧
    (∃ c : Context, (machine c [0x78]).din.length = (1#32).toNat ∧ c.fin = false ∧ c.corr = .corrupted) ∧
    ((machine (absorbed 60) abc).din.length = (3#32).toNat ∧ (absorbed 60).fin = false ∧
      (absorbed 60).corr = .none) :=
  ⟨by decide +kernel, by decide +kernel, by decide +kernel, ⟨{ Context.init .w32 with corr := .stateError }, by decide +kernel⟩,
   ⟨{ Context.init .w32 with corr := .corrupted }, by decide +kernel⟩, by decide +kernel⟩

/-- InputFrame: an INPUT that answers a next state, with a byte left to fill the block and filling it; one on each error
path; and a byte of BUF that no absorbed byte is written to. -/
theorem witness_input_frame :
    (∃ t, exec (.input true 3) (machine (absorbed 60) abc) = .next t) ∧ (absorbed 60).idx.val + (3#32).toNat < 64 ∧
    (∀ k, k < (3#32).toNat → ((absorbed 60).idx.val + k) % 64 ≠ 63) ∧
    (∃ t, exec (.input true 3) (machine (absorbed 61) abc) = .next t) ∧ ¬(absorbed 61).idx.val + (3#32).toNat < 64 ∧
    (∃ t, exec (.input false 3) (machine spent) = .next t) ∧ (∃ t, exec (.input true 3) (machine spent abc) = .next t) ∧
    (∃ t, exec (.input true 3) (machine { absorbed 3 with corr := .stateError } abc) = .next t) :=
  ⟨next_of_isNext (by decide +kernel), by decide +kernel, by decide +kernel, next_of_isNext (by decide +kernel), by decide +kernel, next_of_isNext (by decide +kernel),
   next_of_isNext (by decide +kernel), next_of_isNext (by decide +kernel)⟩

/-- AbsorbWritesOneByte: IDX = 62 and IDX = 63. -/
theorem witness_absorb : (absorbed 62).idx.val ≠ 63 ∧ (absorbed 63).idx.val = 63 := by decide +kernel

/-- BitLengthCountsTheMessage -/
theorem witness_bit_length :
    (machine (absorbed 63) abc).din.length = (3#32).toNat ∧ (absorbed 63).fin = false ∧
    (absorbed 63).corr = .none := by decide +kernel

/-- ChunkInvariance: two splits, one with an empty piece, from the middle of a block. -/
theorem witness_chunk_invariance :
    ([[0x61#8, 0x62#8], [], [0x63#8]] : List (List Byte)).flatten = ([abc] : List (List Byte)).flatten ∧
    (∀ p ∈ ([[0x61#8, 0x62#8], [], [0x63#8]] : List (List Byte)) ++ [abc], p.length < 2 ^ 32) ∧
    (machine (absorbed 62)).ctx.fin = false ∧ (machine (absorbed 62)).ctx.corr = .none := by decide +kernel

/-- RotlIsTheCircularLeftShift, at both ends of the range of n and of i. -/
theorem witness_rotl : (1 ≤ 1 ∧ 1 ≤ 31) ∧ (1 ≤ 31 ∧ 31 ≤ 31) ∧ 0 < 32 ∧ 31 < 32 := by decide +kernel

/-- ScheduleIsTheBlockThenTheRecurrence, RoundFunctionsByStage and RoundConstantsByStage: the rounds at both ends of
every range, each in one range only. -/
theorem witness_stages :
    (15 < 16 ∧ 16 ≤ 16 ∧ 79 < 80) ∧ (0 < 20 ∧ 19 < 20) ∧ (20 ≤ 20 ∧ 39 < 40) ∧ (40 ≤ 40 ∧ 59 < 60) ∧
    (60 ≤ 60 ∧ 79 < 80) ∧ ¬20 < 20 ∧ ¬20 ≤ 19 ∧ ¬40 < 40 ∧ ¬40 ≤ 39 ∧ ¬60 < 60 ∧ ¬60 ≤ 59 := by decide +kernel

/-- The working variables before round t for a block of zeros, whose schedule is zero. -/
def zeroBlockVars : Nat → Vars
  | 0 => .load initialHash
  | t + 1 => roundStep t 0#32 (zeroBlockVars t)

/-- CompressIsEightyRounds: sequences that obey every rule. -/
theorem witness_eighty_rounds :
    ∃ (h : Vector Word 5) (blk : Vector Byte 64) (W A B C D E : Nat → Word),
      (∀ (t : Nat) (ht : t < 16), W t = be32 blk[4 * t] blk[4 * t + 1] blk[4 * t + 2] blk[4 * t + 3]) ∧
      (∀ t, 16 ≤ t → t < 80 → W t = rotl 1 (W (t - 3) ^^^ W (t - 8) ^^^ W (t - 14) ^^^ W (t - 16))) ∧
      (A 0 = h[0] ∧ B 0 = h[1] ∧ C 0 = h[2] ∧ D 0 = h[3] ∧ E 0 = h[4]) ∧
      (∀ t, t < 80 →
        A (t + 1) = rotl 5 (A t) + E t + W t + roundConstant t + roundFunction t (B t) (C t) (D t) ∧
        B (t + 1) = A t ∧ C (t + 1) = rotl 30 (B t) ∧ D (t + 1) = C t ∧ E (t + 1) = D t) := by
  refine ⟨initialHash, Vector.replicate 64 0#8, fun _ => 0#32, fun t => (zeroBlockVars t).a,
    fun t => (zeroBlockVars t).b, fun t => (zeroBlockVars t).c, fun t => (zeroBlockVars t).d,
    fun t => (zeroBlockVars t).e, ?_, ?_, ⟨rfl, rfl, rfl, rfl, rfl⟩, fun t _ => ⟨rfl, rfl, rfl, rfl, rfl⟩⟩
  · intro t ht
    simp [be32]
  · intro t _ _
    show 0#32 = rotl 1 (0#32 ^^^ 0#32 ^^^ 0#32 ^^^ 0#32)
    decide +kernel

/-- ResultFollowsItsChecksInOrder: a state for each of the five ways. -/
theorem witness_result_checks :
    (machine failed).ctx.corr = .stateError ∧ (∃ c : Context, (machine c).ctx.corr = .corrupted) ∧
    ((machine spent).ctx.corr = .none ∧ (machine spent).ctx.fin = true) ∧
    ((machine (absorbed 3)).ctx.corr = .none ∧ (machine (absorbed 3)).ctx.fin = false) :=
  ⟨by decide +kernel, ⟨{ spent with corr := .corrupted }, by decide +kernel⟩, by decide +kernel, by decide +kernel⟩

/-- FsmFollowsItsTable: the first and the last k, on both sides of the branch. -/
theorem witness_fsm :
    0 < 9 ∧ 8 < 9 ∧ (machine (absorbed 56)).ctx.corr = .none ∧ (machine spent).ctx.corr = .none ∧ 56 ≤ (machine (absorbed 56)).ctx.idx.val ∧ ¬56 ≤ (machine (absorbed 55)).ctx.idx.val := by decide +kernel

/-- There is a block with any 64 bytes. -/
theorem block_exists (f : (j : Nat) → j < 64 → Byte) : ∃ blk : Vector Byte 64, ∀ (j : Nat) (hj : j < 64), blk[j] = f j hj :=
  ⟨.ofFn fun j => f j.val j.isLt, fun j hj => by simp⟩

/-- FinalizeCompressesThePaddedBlocks: IDX at the ends of both ranges, and that the described blocks exist. -/
theorem witness_padded_blocks :
    (∀ n ∈ [0, 55, 56, 63], (machine (absorbed n)).ctx.corr = .none ∧ (machine (absorbed n)).ctx.fin = false) ∧
    (absorbed 0).idx.val ≤ 55 ∧ (absorbed 55).idx.val ≤ 55 ∧ 56 ≤ (absorbed 56).idx.val ∧ 56 ≤ (absorbed 63).idx.val ∧
    (∃ blk : Vector Byte 64, ∀ (j : Nat) (hj : j < 64), blk[j] =
      if j < (absorbed 55).idx.val then (absorbed 55).buf[j] else if j = (absorbed 55).idx.val then 0x80#8
      else if j < 56 then 0x00#8 else (bytes64 (absorbed 55).bitlen.toField).getD (j - 56) 0#8) ∧
    (∃ blk₁ blk₂ : Vector Byte 64,
      (∀ (j : Nat) (hj : j < 64), blk₁[j] =
        if j < (absorbed 63).idx.val then (absorbed 63).buf[j] else if j = (absorbed 63).idx.val then 0x80#8
        else 0x00#8) ∧
      ∀ (j : Nat) (hj : j < 64), blk₂[j] =
        if j < 56 then 0x00#8 else (bytes64 (absorbed 63).bitlen.toField).getD (j - 56) 0#8) := by
  obtain ⟨blk₁, h₁⟩ := block_exists fun j hj =>
    if j < (absorbed 63).idx.val then (absorbed 63).buf[j] else if j = (absorbed 63).idx.val then 0x80#8 else 0x00#8
  obtain ⟨blk₂, h₂⟩ := block_exists fun j _ =>
    if j < 56 then 0x00#8 else (bytes64 (absorbed 63).bitlen.toField).getD (j - 56) 0#8
  exact ⟨by decide +kernel, by decide +kernel, by decide +kernel, by decide +kernel, by decide +kernel,
    block_exists fun j hj =>
      if j < (absorbed 55).idx.val then (absorbed 55).buf[j] else if j = (absorbed 55).idx.val then 0x80#8
      else if j < 56 then 0x00#8 else (bytes64 (absorbed 55).bitlen.toField).getD (j - 56) 0#8,
    blk₁, blk₂, h₁, h₂⟩

/-- LengthFieldIsBigEndian: both widths. -/
theorem witness_length_field :
    ((machine (Context.init .w32)).setFsm .len).fsm = .len ∧ (Context.init .w32).bitlen = .w32 0#32 ∧
    ((machine (Context.init .w64)).setFsm .len).fsm = .len ∧ (Context.init .w64).bitlen = .w64 0#64 := by decide +kernel

/-- FinalizeClearsTheContext -/
theorem witness_finalize_clears : (machine (absorbed 63)).ctx.corr = .none ∧ (machine (absorbed 63)).ctx.fin = false := by
  decide +kernel

/-- FinalizeHashesThePaddedMessage and BothLenWidthsAgreeBelowTheCeiling: lengths 0, 55, 56 and 64 are below the
ceilings, and so is the last length below each. -/
theorem witness_message_lengths :
    (∀ n ∈ [0, 55, 56, 64], (as n).length < LenWidth.w32.ceiling ∧ (as n).length < LenWidth.w64.ceiling) ∧
    (∃ m : List Byte, m.length = 2 ^ 29 - 1 ∧ m.length < LenWidth.w32.ceiling) :=
  ⟨by decide +kernel, ⟨List.replicate (2 ^ 29 - 1) 0#8, List.length_replicate,
    by rw [List.length_replicate]; simp [LenWidth.ceiling]⟩⟩

/-- DigestIsHInBigEndianOrder, at both ends of i and of j. -/
theorem witness_digest_bytes : 0 < 5 ∧ 4 < 5 ∧ 0 < 4 ∧ 3 < 4 := by decide +kernel

/-- RepeatedResultIsIdempotent: a finalized context, and commands other than RESET that complete on it. -/
theorem witness_repeated_result :
    (machine spent).ctx.fin = true ∧ (machine spent).ctx.corr = .none ∧
    (∃ t, exec (.result true) (machine spent) = .next t) ∧ (∃ t, exec (.input true 3) (machine spent abc) = .next t) ∧
    (∀ b, (.result true : Instr) ≠ .reset b) ∧ (∀ b, (.input true 3 : Instr) ≠ .reset b) :=
  ⟨by decide +kernel, by decide +kernel, next_of_isNext (by decide +kernel), next_of_isNext (by decide +kernel), by decide +kernel, by decide +kernel⟩

/-- HashingAMessageEmitsItsDigest: pieces, one of them empty, from a context that holds an error. -/
theorem witness_hashing :
    (∀ p ∈ ([[0x61#8], [], as 64] : List (List Byte)), p.length < 2 ^ 32) ∧
    ([[0x61#8], [], as 64] : List (List Byte)).flatten.length <
      (machine failed).ctx.bitlen.lenWidth.ceiling := by decide +kernel

/-- ErrorsChangeNothingButCorr: an error that stores, one on FIN = 1 and one on a stored error that do not, and an
illegal command. -/
theorem witness_errors :
    (spent.fin = true ∧ decode [0x00000005, 1] = .instr (.input true 1) ∧ (1#32) ≠ 0#32 ∧
      (traceOf (step (machine spent [] [.transaction ⟨[0x00000005, 1], [0x78]⟩]))).map (·.getLast?) =
        some (some (.rsp .stateError))) ∧
    (decode [0x00000002] = .instr (.result false) ∧
      (traceOf (step (machine spent [] [.transaction ⟨[0x00000002], []⟩]))).map (·.getLast?) =
        some (some (.rsp .nullArgument))) ∧
    (decode [0x00000006] = .instr (.result true) ∧
      (traceOf (step (machine failed [] [.transaction ⟨[0x00000006], []⟩]))).map (·.getLast?) =
        some (some (.rsp .stateError))) ∧
    (traceOf (step (machine spent [] [.transaction ⟨[0x00000007], []⟩]))).map (·.getLast?) =
      some (some (.rsp .illegalCommand)) := by decide +kernel

/-- StoredErrorPersistsUntilReset: a state for each clause, and commands that complete on it. -/
theorem witness_stored_error :
    (machine failed).ctx.Inv ∧ (machine failed).ctx.corr ≠ .none ∧ (machine failed).din = [] ∧
    (machine failed abc).ctx.Inv ∧ (machine failed abc).ctx.corr ≠ .none ∧ (machine failed abc).din.length = (3#32).toNat ∧ (3#32) ≠ 0#32 ∧
    (∃ t, exec (.result true) (machine failed) = .next t) ∧ (∃ t, exec (.input true 3) (machine failed abc) = .next t) :=
  have inv : failed.Inv := ⟨fun _ => by decide +kernel, fun _ => rfl, fun h => (by cases h), by decide +kernel⟩
  ⟨inv, by decide +kernel, by decide +kernel, inv, by decide +kernel, by decide +kernel, by decide +kernel,
   next_of_isNext (by decide +kernel), next_of_isNext (by decide +kernel)⟩

/-- CorruptedIsNeverStored, LenWidthIsFixed and StepKeepsTheInvariants: a step, in a state that is not a reset state. -/
theorem witness_invariants :
    (machine spent [] [.transaction ⟨[0x00000005, 1], [0x78]⟩]).Inv ∧
    (machine spent [] [.transaction ⟨[0x00000005, 1], [0x78]⟩]).ctx.corr ≠ .corrupted ∧
    ∃ t, step (machine spent [] [.transaction ⟨[0x00000005, 1], [0x78]⟩]) = .next t :=
  ⟨⟨⟨fun _ => by decide +kernel, fun h => absurd rfl h, fun h => (by cases h), by decide +kernel⟩, by decide +kernel, by decide +kernel⟩, by decide +kernel,
   next_of_isNext (by decide +kernel)⟩

/-- The invariants hold in the middle of a message (I-4 of R22). -/
theorem witness_invariants_mid_message :
    (machine (absorbed 3)).Inv :=
  ⟨⟨fun h => by revert h; decide +kernel, fun h => absurd (by decide +kernel) h, fun _ => ⟨3, by decide +kernel, by decide +kernel⟩, by decide +kernel⟩,
   by decide +kernel, by decide +kernel⟩

/-- FlagWritersAreAsListed: a command that sets FIN, one that clears it, one that sets CORR and one that clears it. -/
theorem witness_flag_writers :
    (ctxOf (exec (.result true) (machine (absorbed 3)))).map (·.fin) = some true ∧ (absorbed 3).fin = false ∧
    (ctxOf (exec (.reset false) (machine failed))).map (fun c => (c.fin, c.corr)) = some (false, .none) ∧
    failed.fin = true ∧ failed.corr = .stateError ∧
    (ctxOf (exec (.input true 3) (machine spent abc))).map (·.corr) = some .stateError ∧ spent.corr = .none := by decide +kernel

/-- HashRegisterWritersAreAsListed: each writer changes H. -/
theorem witness_hash_writers :
    (ctxOf (exec (.reset false) (machine spent))).map (·.h) = some initialHash ∧ spent.h ≠ initialHash ∧
    (ctxOf (exec (.input true 3) (machine (absorbed 61) abc))).map (·.h != initialHash) = some true ∧
    (absorbed 61).h = initialHash ∧
    (ctxOf (exec (.result true) (machine (absorbed 3)))).map (·.h != initialHash) = some true ∧
    (absorbed 3).h = initialHash := by decide +kernel

/-- StaleBytesAreUnobservable: two states that differ, in a stale byte, with a run and a refused run from both. -/
theorem witness_stale :
    ∃ c d : Context, c ≠ d ∧
      (machine c [] [.transaction ⟨[0x00000005, 3], abc⟩]).StaleEq (machine d [] [.transaction ⟨[0x00000005, 3], abc⟩]) ∧
      (∃ t, RunsTo (machine c [] [.transaction ⟨[0x00000005, 3], abc⟩]) 1 t) ∧
      refusalOf (runSteps 1 (machine c [] [.transaction ⟨[0x00000005], []⟩])) = some .missingLenWord := by
  refine ⟨absorbed 3, { absorbed 3 with buf := (absorbed 3).buf.set 3 0x55#8 }, by decide +kernel,
    ⟨⟨rfl, rfl, rfl, rfl, rfl, ?_⟩, rfl, rfl, rfl, rfl⟩, next_of_isNext (by decide +kernel), by decide +kernel⟩
  intro j hj hlt
  have h3 : (absorbed 3).idx.val = 3 := by decide +kernel
  have hlt' : j < (absorbed 3).idx.val := hlt
  have : 3 ≠ j := by omega
  simp [machine, this]

/-- InstancesAreIndependent: a system of two instances, a step of the second, and a refused step of the second. -/
theorem witness_instances :
    (∃ (sys : System 1) (s : State), step sys.engines[(1 : Fin 2)] = .next s ∧ (0 : Fin 2) ≠ 1) ∧
    ∃ (sys : System 1) (r : Refusal), step sys.engines[(1 : Fin 2)] = .refused r :=
  ⟨⟨⟨#v[State.reset, pending [.transaction ⟨[0x00000006], []⟩]]⟩, _, rfl, by decide +kernel⟩,
   ⟨⟨#v[State.reset, pending [.transaction ⟨[0x00000005], []⟩]]⟩, _, rfl⟩⟩

end Sys2Proof.Tests
end

