-- ==== Sys2Proof/Proofs/Words.lean ====
section
/-! PROOFS. ROTL (R9) and the byte order of a word (R10, 00_scope.md section 4). -/

namespace Sys2Proof.Machine

/-! ### ROTL -/

/-- R9's formula on numbers. The right shift is below 2^32 already, so the modulus cuts the left shift alone. -/
theorem toNat_rotl (n : Nat) (x : Word) :
    (rotl n x).toNat = ((x.toNat <<< n) ||| (x.toNat >>> (32 - n))) % 2 ^ 32 := by
  have hright : x.toNat >>> (32 - n) < 2 ^ 32 :=
    (Nat.shiftRight_le x.toNat (32 - n)).trans_lt x.isLt
  rw [rotl, BitVec.toNat_or, BitVec.toNat_shiftLeft, BitVec.toNat_ushiftRight,
    Nat.or_mod_two_pow, Nat.mod_eq_of_lt hright]

/-- Up to 31 places, ROTL is the library's rotation. -/
theorem rotl_eq_rotateLeft {n : Nat} (hn : n < 32) (x : Word) : rotl n x = x.rotateLeft n := by
  rw [rotl, BitVec.rotateLeft_def, Nat.mod_eq_of_lt hn]

/-- Bit `i` of ROTL(n, x) is bit `i - n` of `x`, counted modulo 32. -/
theorem getLsbD_rotl {n i : Nat} (x : Word) (hn : n < 32) (hi : i < 32) :
    (rotl n x).getLsbD i = x.getLsbD ((i + (32 - n)) % 32) := by
  rw [rotl_eq_rotateLeft hn, BitVec.getLsbD_rotateLeft, Nat.mod_eq_of_lt hn]
  by_cases hwrap : i < n
  · have hpos : (i + (32 - n)) % 32 = 32 - n + i := by omega
    simp [hwrap, hpos]
  · have hpos : (i + (32 - n)) % 32 = i - n := by omega
    simp [hwrap, hi, hpos]

/-- Settles O21: the formula is `toNat_rotl`, the bits are `getLsbD_rotl`. -/
theorem rotlIsTheCircularLeftShift : Obligations.RotlIsTheCircularLeftShift := by
  intro n x _ hn
  exact ⟨toNat_rotl n x, fun i hi => getLsbD_rotl x (by omega) hi⟩

/-! ### BE32 and BYTES32 -/

/-- Appending `y` below `x` is positional notation: the halves do not overlap, so `|` is `+`. -/
theorem toNat_append_eq_add {m n : Nat} (x : BitVec m) (y : BitVec n) :
    (x ++ y).toNat = x.toNat * 2 ^ n + y.toNat := by
  rw [BitVec.toNat_append, ← Nat.shiftLeft_add_eq_or_of_lt y.isLt, Nat.shiftLeft_eq]

/-- BE32 as a number (R10). -/
theorem toNat_be32 (b0 b1 b2 b3 : Byte) :
    (be32 b0 b1 b2 b3).toNat = b0.toNat * 2 ^ 24 + b1.toNat * 2 ^ 16 + b2.toNat * 2 ^ 8 + b3.toNat := by
  rw [be32, toNat_append_eq_add, toNat_append_eq_add, toNat_append_eq_add]
  ring

/-- Eight bits read at position `s`, as the number's quotient and remainder. -/
theorem toNat_extractByte (w : Word) (s : Nat) : (w.extractLsb' s 8).toNat = w.toNat / 2 ^ s % 2 ^ 8 := by
  rw [BitVec.extractLsb'_toNat, Nat.shiftRight_eq_div_pow]

/-- BYTES32 takes apart what BE32 put together: each byte is a digit to the base 256 of `toNat_be32`'s number. -/
@[simp] theorem bytes32_be32 (b0 b1 b2 b3 : Byte) : bytes32 (be32 b0 b1 b2 b3) = [b0, b1, b2, b3] := by
  have h0 := b0.isLt
  have h1 := b1.isLt
  have h2 := b2.isLt
  have h3 := b3.isLt
  simp only [bytes32, List.cons.injEq, and_true, ← BitVec.toNat_inj, toNat_extractByte, toNat_be32]
  omega

/-- Settles O22: the number is `toNat_be32`, the bytes are `bytes32_be32`. -/
theorem wordsAreBigEndian : Obligations.WordsAreBigEndian :=
  fun b0 b1 b2 b3 => ⟨toNat_be32 b0 b1 b2 b3, bytes32_be32 b0 b1 b2 b3⟩

end Sys2Proof.Machine
end

