-- ==== Sys2Proof/Proofs/FlagWriters.lean ====
section
/-! PROOFS. The writers of FIN and CORR (10_state.md R17 to R19). -/

namespace Sys2Proof.Machine

/-! ### The padding FSM -/

/-- No transition of the FSM writes CORR (R77). -/
@[simp] theorem padStep_corr (r : PadRun) : (padStep r).s.ctx.corr = r.s.ctx.corr := by
  unfold padStep
  cases r.s.fsm <;> simp

/-- FIN has one writer among the FSM's transitions: F_CLEAR, which sets it (R77, R85). -/
theorem padStep_fin (r : PadRun) : (padStep r).s.ctx.fin = (r.s.fsm == .clear || r.s.ctx.fin) := by
  unfold padStep
  cases r.s.fsm <;> simp

@[simp] theorem padRun_corr (n : Nat) (r : PadRun) : (padRun n r).s.ctx.corr = r.s.ctx.corr := by
  induction n generalizing r with
  | zero => rfl
  | succ n ih => rw [padRun_succ, ih, padStep_corr]

/-- A run of the FSM never clears FIN. -/
theorem padRun_fin_of_fin (n : Nat) {r : PadRun} (h : r.s.ctx.fin = true) : (padRun n r).s.ctx.fin = true := by
  induction n generalizing r with
  | zero => exact h
  | succ n ih => exact ih (by simp [padStep_fin, h])

/-! ### What each command does to the two flags -/

theorem execReset_flags {bufp : Bool} {s t : State} (h : execReset bufp s = .next t) :
    t.ctx.fin = false ∧ t.ctx.corr = .none := by
  cases h
  exact ⟨rfl, rfl⟩

/-- The context an INPUT leaves: as it was, with STATE_ERROR stored by check 3 of R59, or with the data absorbed. -/
theorem execInput_ctx {bufp : Bool} {len : Word} {s t : State} (h : execInput bufp len s = .next t) :
    t.ctx = s.ctx ∨
    (len ≠ 0#32 ∧ bufp = true ∧ s.ctx.fin = true ∧ t.ctx = s.ctx.storeStateError) ∨
    (len ≠ 0#32 ∧ bufp = true ∧ s.ctx.fin = false ∧ s.ctx.corr = .none ∧ t.ctx = s.ctx.absorbAll s.din) := by
  obtain ⟨-, ⟨-, rfl⟩ | ⟨-, -, rfl⟩ | ⟨hlen, hbufp, hfin, rfl⟩ | ⟨-, -, -, e, -, rfl⟩ |
    ⟨hlen, hbufp, hfin, hcorr, rfl⟩⟩ := execInput_next h
  · cases bufp <;> exact .inl rfl
  · exact .inl rfl
  · exact .inr (.inl ⟨hlen, hbufp, hfin, rfl⟩)
  · exact .inl rfl
  · exact .inr (.inr ⟨hlen, hbufp, hfin, hcorr, rfl⟩)

theorem execInput_fin {bufp : Bool} {len : Word} {s t : State} (h : execInput bufp len s = .next t) :
    t.ctx.fin = s.ctx.fin := by
  obtain hctx | ⟨-, -, -, hctx⟩ | ⟨-, -, -, -, hctx⟩ := execInput_ctx h <;> simp [hctx]

/-- INPUT writes CORR in check 3 of R59 alone. -/
theorem execInput_corr {bufp : Bool} {len : Word} {s t : State} (h : execInput bufp len s = .next t)
    (hne : t.ctx.corr ≠ s.ctx.corr) :
    t.ctx.corr = .stateError ∧ s.ctx.fin = true ∧ len ≠ 0#32 ∧ bufp = true := by
  obtain hctx | ⟨hlen, hbufp, hfin, hctx⟩ | ⟨-, -, -, -, hctx⟩ := execInput_ctx h
  · exact absurd (by rw [hctx]) hne
  · exact ⟨by simp [hctx], hfin, hlen, hbufp⟩
  · exact absurd (by simp [hctx]) hne

theorem execResult_corr {bufp : Bool} {s t : State} (h : execResult bufp s = .next t) :
    t.ctx.corr = s.ctx.corr := by
  obtain ⟨-, rfl⟩ | ⟨-, e, -, rfl⟩ | ⟨-, -, rfl⟩ := execResult_next h <;> simp

/-- A RESULT that changes FIN has passed both its checks (R76), and sets it: the FSM never clears FIN. -/
theorem execResult_fin {bufp : Bool} {s t : State} (h : execResult bufp s = .next t)
    (hne : t.ctx.fin ≠ s.ctx.fin) : t.ctx.fin = true ∧ bufp = true ∧ s.ctx.corr = .none := by
  obtain ⟨-, rfl⟩ | ⟨-, e, -, rfl⟩ | ⟨hbufp, hcorr, rfl⟩ := execResult_next h
  · exact absurd rfl hne
  · exact absurd rfl hne
  · refine ⟨?_, hbufp, hcorr⟩
    cases hfin : s.ctx.fin with
    | true => exact padRun_fin_of_fin _ hfin
    | false => simpa [hfin] using hne

/-! ### The list of R19 -/

/-- Settles O41, by the command: RESET clears both flags, INPUT keeps FIN and writes CORR in one check, RESULT keeps
CORR and can only set FIN. -/
theorem flagWritersAreAsListed : Obligations.FlagWritersAreAsListed := by
  refine ⟨fun i s t h => ?_, fun _ => rfl⟩
  cases i with
  | reset bufp =>
    obtain ⟨hfin, hcorr⟩ := execReset_flags (bufp := bufp) h
    exact ⟨fun _ => .inr ⟨hfin, bufp, rfl⟩, fun _ => .inr ⟨hcorr, bufp, rfl⟩⟩
  | input bufp len =>
    refine ⟨fun hne => absurd (execInput_fin h) hne, fun hne => ?_⟩
    obtain ⟨hcorr, hfin, hlen, rfl⟩ := execInput_corr h hne
    exact .inl ⟨hcorr, hfin, len, hlen, rfl⟩
  | result bufp =>
    refine ⟨fun hne => ?_, fun hne => absurd (execResult_corr h) hne⟩
    obtain ⟨hfin, rfl, hcorr⟩ := execResult_fin h hne
    exact .inl ⟨hfin, rfl, hcorr⟩

end Sys2Proof.Machine
end

