-- ==== Sys2Proof/Proofs/CommandWords.lean ====
section
/-! PROOFS. The decoder of one command word (30_encoding.md R51, R53), its fields read as numbers. -/

namespace Sys2Proof

/-! ### The fields as numbers -/

theorem rsvdField_eq_zero_iff (cmd : Word) : rsvdField cmd = 0#29 ↔ cmd.toNat / 8 = 0 := by
  rw [← rsvdField_toNat, ← BitVec.toNat_inj, BitVec.toNat_ofNat, Nat.zero_mod]

theorem opField_eq_iff (cmd : Word) (op : BitVec 2) : opField cmd = op ↔ cmd.toNat % 4 = op.toNat := by
  rw [← opField_toNat, BitVec.toNat_inj]

theorem bufpField_eq (cmd : Word) : bufpField cmd = (cmd.toNat / 4 % 2 == 1) := by
  rw [bufpField, BitVec.getLsbD, Nat.testBit_eq_decide_div_mod_eq, beq_eq_decide]

/-! ### The class of a word -/

/-- R51's conditions in their order, with the fields read by division. -/
theorem classify_eq (cmd : Word) : classify cmd =
    if cmd.toNat / 8 ≠ 0 ∨ cmd.toNat % 4 = 3 then .illegal
    else if cmd.toNat % 4 = 0 then .reset (cmd.toNat / 4 % 2 == 1)
    else if cmd.toNat % 4 = 1 then .input (cmd.toNat / 4 % 2 == 1)
    else .result (cmd.toNat / 4 % 2 == 1) := by
  simp only [classify, ne_eq, rsvdField_eq_zero_iff, opField_eq_iff, bufpField_eq]
  rfl

/-- The two ways for a word to be illegal (R51). -/
theorem classify_eq_illegal_iff (cmd : Word) :
    classify cmd = .illegal ↔ cmd.toNat / 8 ≠ 0 ∨ cmd.toNat % 4 = 3 := by
  rw [classify_eq]
  constructor
  · intro h
    by_contra hlegal
    rw [if_neg hlegal] at h
    split at h
    · cases h
    · split at h <;> cases h
  · exact fun h => if_pos h

/-- Settles O2: each clause picks one branch of `classify_eq`. -/
theorem commandWordDecodesByItsFields : Obligations.CommandWordDecodesByItsFields := by
  intro cmd bufp
  refine ⟨(classify_eq_illegal_iff cmd).mpr, fun hrsvd hop => ?_, fun hrsvd hop => ?_, fun hrsvd hop => ?_⟩ <;>
    simp [classify_eq, hrsvd, hop, bufp]

/-- Settles O3: a legal word is below 8 and is neither 3 nor 7. -/
theorem sixLegalCommandWords : Obligations.SixLegalCommandWords := by
  intro cmd
  simp only [ne_eq, classify_eq_illegal_iff, List.mem_cons, List.not_mem_nil, or_false, ← BitVec.toNat_inj,
    BitVec.ofNat_eq_ofNat, BitVec.toNat_ofNat, Nat.reducePow, Nat.reduceMod]
  omega

end Sys2Proof
end

