-- ==== Sys2Proof/Proofs/IllegalCommands.lean ====
section
/-! PROOFS. What a step does with an illegal command word and its framing (30_encoding.md R52). -/

namespace Sys2Proof

/-! ### Framing and decoding of an illegal word -/

/-- A command word alone is well-formed when it calls for no LEN word and no data is offered (R45). -/
theorem wellFormed_singleton_iff (cmd : Word) (data : List Byte) :
    Transaction.wellFormed ⟨[cmd], data⟩ = true ↔ opField cmd ≠ 0b01#2 ∧ data = [] := by
  simp [Transaction.wellFormed, opField]

/-- A command word with a LEN word is well-formed when OP = 0b01 and the data phase is the one announced (R45). -/
theorem wellFormed_pair_iff (cmd len : Word) (data : List Byte) :
    Transaction.wellFormed ⟨[cmd, len], data⟩ = true ↔
      opField cmd = 0b01#2 ∧ data.length = announcedData cmd len := by
  simp [Transaction.wellFormed, opField, announcedData, bufpField]

/-- The decoder reads the framing of an illegal word as R45 does: it rejects the word by name, with the data phase that
came with it. -/
theorem decode_illegal {cmd : Word} {more : List Word} {data : List Byte}
    (hwf : Transaction.wellFormed ⟨cmd :: more, data⟩ = true) (hcmd : classify cmd = .illegal) :
    decode (cmd :: more) = .reject (.illegalCommand data.length) := by
  match more, hwf with
  | [], hwf =>
    obtain ⟨hop, rfl⟩ := (wellFormed_singleton_iff cmd data).mp hwf
    simp [decode, hop, hcmd]
  | [len], hwf =>
    obtain ⟨hop, hlen⟩ := (wellFormed_pair_iff cmd len data).mp hwf
    simp [decode, hop, hcmd, hlen]
  | _ :: _ :: _, hwf => simp [Transaction.wellFormed] at hwf

namespace Machine

/-! ### The step -/

/-- A step whose oldest move is a transaction runs that transaction (R36). -/
theorem step_transaction {s : State} {t : Transaction} {rest : List HostMove}
    (hport : s.port = .transaction t :: rest) : step s = runTransaction t { s with port := rest } := by
  simp only [step, nextMove, hport, hostMove]

/-- A transaction rejected as an illegal command of its own data length is performed by `execIllegal` (R52). -/
theorem runTransaction_illegal {t : Transaction} (s : State)
    (hdec : decode t.cmdBeats = .reject (.illegalCommand t.data.length)) :
    runTransaction t s = .next (execIllegal (s.receive t)) := by
  simp [runTransaction, hdec]

/-- Settles O7: the framed word is rejected as illegal (`decode_illegal`), so the step is `execIllegal` on the received
beats. -/
theorem illegalCommandCompletes : Obligations.IllegalCommandCompletes := by
  intro s cmd more data rest hport hwf hillegal
  have hdec := decode_illegal hwf ((classify_eq_illegal_iff cmd).mpr hillegal)
  rw [step_transaction hport, runTransaction_illegal _ hdec]
  rfl

end Machine

end Sys2Proof
end

