-- ==== Sys2Proof/Proofs/Reset.lean ====
section
/-! PROOFS. What RESET does (40_reset.md R58). -/

namespace Sys2Proof.Machine

/-- RESET writes the initial context of the instance's width and completes with OK, with no check and no use of BUFP
(R48, R58). -/
theorem exec_reset (bufp : Bool) (s : State) :
    exec (.reset bufp) s = .next ((s.setCtx (.init s.ctx.bitlen.lenWidth)).complete .ok) := rfl

/-- Settles O14: `exec_reset`, with the fields of `Context.init` and the updates of `State.complete` written out. -/
theorem resetReinitialisesTheContext : Obligations.ResetReinitialisesTheContext := by
  intro bufp s
  rw [exec_reset]
  rfl

end Sys2Proof.Machine
end

