-- ==== Sys2Proof/Proofs/Absorb.lean ====
section
/-! PROOFS. ABSORB, BLOCK_DONE and the counts of a whole data phase (41_input.md R60 to R62). -/

namespace Sys2Proof.Machine

/-! ### One byte -/

/-- The byte that fills the block ends it: H and IDX are written by BLOCK_DONE (R60, R61). -/
theorem Context.absorb_of_idx_eq {c : Context} (b : Byte) (hlast : c.idx.val = 63) :
    c.absorb b =
      ({ c with buf := c.buf.set c.idx.val b, bitlen := (c.absorb b).bitlen } : Context).blockDone := by
  have hidx : c.idx = 63 := Fin.ext hlast
  rw [Context.absorb_bitlen, Context.absorb, if_pos hidx]

/-- A byte that does not fill the block keeps H and moves IDX on by one (R60). -/
theorem Context.absorb_of_idx_ne {c : Context} (b : Byte) (hroom : c.idx.val ≠ 63) :
    (c.absorb b).h = c.h ∧ (c.absorb b).idx.val = c.idx.val + 1 := by
  have hidx : c.idx ≠ 63 := fun h => hroom (congrArg Fin.val h)
  have hlt := c.idx.isLt
  refine ⟨by rw [Context.absorb_h, if_neg hidx], ?_⟩
  rw [Context.absorb_idx, Nat.mod_eq_of_lt (by omega)]

/-- Settles O17: BUF and BITLEN from the laws of ABSORB, H and IDX by whether the byte fills the block. -/
theorem absorbWritesOneByte : Obligations.AbsorbWritesOneByte := by
  intro c b
  refine ⟨fun j hj => ?_, ?_, ?_, c.absorb_of_idx_eq b, c.absorb_of_idx_ne b, c.absorb_fin b, c.absorb_corr b⟩
  · simp only [Context.absorb_buf, Vector.getElem_set, eq_comm]
  · rw [Context.absorb_bitlen, BitLen.toNat_add8]
  · rw [Context.absorb_bitlen, BitLen.lenWidth_add8]

/-- Settles O18: R61's two writes are the definition of BLOCK_DONE. -/
theorem blockDoneCompressesAndEmpties : Obligations.BlockDoneCompressesAndEmpties := fun _ => rfl

/-! ### A data phase -/

/-- BITLEN counts the absorbed bits modulo 2^LEN_WIDTH (R62). -/
theorem Context.absorbAll_bitlen (c : Context) (bs : List Byte) :
    (c.absorbAll bs).bitlen.toNat = (c.bitlen.toNat + 8 * bs.length) % 2 ^ c.bitlen.lenWidth.bits := by
  induction bs generalizing c with
  | nil => exact (Nat.mod_eq_of_lt c.bitlen.toNat_lt).symm
  | cons b bs ih =>
    rw [Context.absorbAll_cons, ih, Context.absorb_bitlen, BitLen.lenWidth_add8, BitLen.toNat_add8,
      Nat.mod_add_mod, List.length_cons]
    congr 1
    omega

/-- IDX counts the absorbed bytes modulo the block size (R15, R60). -/
theorem Context.absorbAll_idx (c : Context) (bs : List Byte) :
    (c.absorbAll bs).idx.val = (c.idx.val + bs.length) % 64 := by
  induction bs generalizing c with
  | nil => exact (Nat.mod_eq_of_lt c.idx.isLt).symm
  | cons b bs ih =>
    rw [Context.absorbAll_cons, ih, Context.absorb_idx, Nat.mod_add_mod, List.length_cons]
    congr 1
    omega

end Sys2Proof.Machine
end

