-- ==== Sys2Proof/Proofs/Input.lean ====
section
/-! PROOFS. INPUT: its checks, and what an INPUT that passes them leaves (41_input.md R59, R62). -/

namespace Sys2Proof.Machine

/-! ### The ways through R59, for a framed data phase -/

/-- Check 1: an empty INPUT succeeds and changes nothing. -/
theorem exec_input_empty {bufp : Bool} {s : State} (hframed : bufp = true → s.din.length = (0#32).toNat) :
    exec (.input bufp 0#32) s = .next ((if bufp then s.takeDataPhase else s).complete .ok) := by
  cases bufp with
  | false => simp [exec, execInput]
  | true => simp [exec, execInput, hframed rfl]

/-- Check 2: bytes are announced and there is no data source. -/
theorem exec_input_noBuffer {len : Word} (s : State) (hlen : len ≠ 0#32) :
    exec (.input false len) s = .next (s.complete .nullArgument) := by
  simp [exec, execInput, hlen]

/-- Check 3: the context is spent, which is an error that CORR keeps. -/
theorem exec_input_spent {len : Word} {s : State} (hframed : s.din.length = len.toNat) (hlen : len ≠ 0#32)
    (hfin : s.ctx.fin = true) :
    exec (.input true len) s = .next ((s.takeDataPhase.setCtx s.ctx.storeStateError).complete .stateError) := by
  simp [exec, execInput, hframed, hlen, hfin]

/-- Check 4: an error stored earlier is returned again. -/
theorem exec_input_failed {len : Word} {s : State} {st : Status} (hframed : s.din.length = len.toNat)
    (hlen : len ≠ 0#32) (hfin : s.ctx.fin = false) (hcorr : s.ctx.corr.stored = some st) :
    exec (.input true len) s = .next (s.takeDataPhase.complete st) := by
  simp [exec, execInput, hframed, hlen, hfin, hcorr]

/-- In a state that accepts bytes, INPUT absorbs its data phase. An empty one needs no case of its own: check 1 leaves
what absorbing no byte leaves. -/
theorem exec_input_accepts {len : Word} {s : State} (hframed : s.din.length = len.toNat) (hfin : s.ctx.fin = false)
    (hcorr : s.ctx.corr = .none) :
    exec (.input true len) s = .next ((s.takeDataPhase.setCtx (s.ctx.absorbAll s.din)).complete .ok) := by
  by_cases hlen : len = 0#32
  · subst hlen
    have hnone : s.din = [] := List.length_eq_zero_iff.mp hframed
    rw [exec_input_empty fun _ => hframed, hnone]
    rfl
  · simp [exec, execInput, hframed, hlen, hfin, hcorr, Corr.stored]

/-- Settles O15: one clause for each way through R59. -/
theorem inputFollowsItsChecksInOrder : Obligations.InputFollowsItsChecksInOrder := by
  intro bufp len s hframed done
  refine ⟨?_, ?_, ?_, ?_, ?_, ?_⟩
  · rintro rfl
    rw [exec_input_empty hframed]
    cases bufp <;> simp [done, State.complete, State.takeDataPhase]
  · rintro hlen rfl
    rw [exec_input_noBuffer s hlen]
    simp [done, State.complete]
  · rintro hlen rfl hfin
    exact exec_input_spent (hframed rfl) hlen hfin
  · rintro hlen rfl hfin hcorr
    exact exec_input_failed (hframed rfl) hlen hfin (by rw [hcorr]; rfl)
  · rintro hlen rfl hfin hcorr
    exact exec_input_failed (hframed rfl) hlen hfin (by rw [hcorr]; rfl)
  · rintro - rfl hfin hcorr
    exact exec_input_accepts (hframed rfl) hfin hcorr

/-- Settles O19: a successful INPUT leaves the context of `Context.absorbAll`, whose BITLEN and IDX are counted there. -/
theorem bitLengthCountsTheMessage : Obligations.BitLengthCountsTheMessage := by
  refine ⟨fun len s hframed hfin hcorr => ⟨_, exec_input_accepts hframed hfin hcorr, ?_⟩, fun w m => ?_⟩
  · simp [← hframed, Context.absorbAll_bitlen, Context.absorbAll_idx, hcorr]
  · simp [Context.absorbAll_bitlen, Context.absorbAll_idx]

end Sys2Proof.Machine
end

