-- ==== Sys2Proof/Proofs/FinalizeRun.lean ====
section
/-! PROOFS. The run of the padding FSM is the straight-line FINALIZE (43_finalization.md R76, R77). -/

namespace Sys2Proof.Machine

/-! ### Updates of the state, one after another -/

@[simp] theorem State.setCtx_setCtx (c d : Context) (s : State) : (s.setCtx c).setCtx d = s.setCtx d := rfl
@[simp] theorem State.emitDigest_setFsm (f : FsmState) (s : State) :
    (s.setFsm f).emitDigest = s.emitDigest.setFsm f := rfl
@[simp] theorem State.complete_setFsm (st : Status) (f : FsmState) (s : State) :
    (s.setFsm f).complete st = s.complete st := rfl

/-! ### The run -/

/-- The FSM's five transitions from F_FILL_LEN, which both paths end with, and any number more in F_IDLE. -/
theorem padRun_fillLen (n p : Nat) (s : State) :
    (padRun (5 + n) ⟨p, s.setFsm .fillLen⟩).s =
      (s.setCtx (s.ctx.zeroFill p 56).writeLength.blockDone.clearSpent).emitDigest.complete .ok := by
  have hrun : padRun 5 ⟨p, s.setFsm .fillLen⟩ =
      ⟨max p 56, (s.setCtx (s.ctx.zeroFill p 56).writeLength.blockDone.clearSpent).emitDigest.complete .ok⟩ := by
    simp only [padRun_succ, padRun_zero, padStep_fillLen, padStep_len, padStep_compFinal, padStep_clear, padStep_out,
      State.setCtx_ctx, State.setCtx_setCtx, State.emitDigest_setFsm, State.complete_setFsm]
  rw [padRun_add, hrun, padRun_idle n _ rfl]

/-- From F_MARK the FSM runs FINALIZE, emits the digest and completes, on either side of the branch of R79. -/
theorem padRun_mark (s : State) :
    (padRun padTransitions ⟨0, s.setFsm .mark⟩).s = (s.setCtx s.ctx.finalize).emitDigest.complete .ok := by
  rw [padTransitions, padRun_succ, padStep_mark, Context.finalize]
  cases s.ctx.needsExtraBlock with
  | true =>
    rw [if_pos rfl, padRun_succ, padStep_fillTail, padRun_succ, padStep_compExtra, padRun_fillLen 0]
    simp only [State.setCtx_ctx, State.setCtx_setCtx, if_true]
  | false =>
    rw [if_neg Bool.false_ne_true, padRun_fillLen 2]
    simp only [State.setCtx_ctx, State.setCtx_setCtx, Bool.false_eq_true, if_false]

/-- The first RESULT of a message passes both checks and finalizes (R76). -/
theorem exec_result_finalizes {s : State} (hfin : s.ctx.fin = false) (hcorr : s.ctx.corr = .none) :
    exec (.result true) s = .next ((s.setCtx s.ctx.finalize).emitDigest.complete .ok) := by
  rw [← padRun_mark]
  simp [exec, execResult, hfin, hcorr, Corr.stored]

end Sys2Proof.Machine
end

