-- ==== Sys2Proof/Proofs/ChunkInvariance.lean ====
section
/-! PROOFS. A message in any split (41_input.md R63): a run of INPUTs absorbs the concatenation of its pieces. -/

namespace Sys2Proof.Machine

/-- The decoder reads the beats of an INPUT back (R51, R55). -/
theorem decode_encode_input (bufp : Bool) (len : Word) :
    decode (encode (.input bufp len)) = .instr (.input bufp len) := by
  simp [encode, decode, classify]

/-- One step takes the host's INPUT of `bytes` and absorbs them, in a state that accepts bytes (R45, R59). -/
theorem step_inputTransaction {s : State} {bytes : List Byte} {rest : List HostMove}
    (hport : s.port = .transaction (inputTransaction bytes) :: rest) (hlen : bytes.length < 2 ^ 32)
    (hfin : s.ctx.fin = false) (hcorr : s.ctx.corr = .none) :
    ∃ t, step s = .next t ∧ t.port = rest ∧ t.ctx = s.ctx.absorbAll bytes := by
  have hframed : bytes.length = (BitVec.ofNat 32 bytes.length).toNat := by
    rw [BitVec.toNat_ofNat, Nat.mod_eq_of_lt hlen]
  have hrun : runTransaction (inputTransaction bytes) { s with port := rest } =
      exec (.input true (BitVec.ofNat 32 bytes.length))
        (State.receive (inputTransaction bytes) { s with port := rest }) := by
    simp only [runTransaction, inputTransaction, decode_encode_input, dataBeats, if_true, ← hframed]
  exact ⟨_, (step_transaction hport).trans (hrun.trans (exec_input_accepts hframed hfin hcorr)), rfl, rfl⟩

/-- A run of INPUTs absorbs the concatenation of its pieces, and none of them ends the message. -/
theorem runsTo_inputMoves {s : State} {pieces : List (List Byte)} (hport : s.port = inputMoves pieces)
    (hlen : ∀ p ∈ pieces, p.length < 2 ^ 32) (hfin : s.ctx.fin = false) (hcorr : s.ctx.corr = .none) :
    ∃ t, RunsTo s pieces.length t ∧ t.port = [] ∧ t.ctx = s.ctx.absorbAll pieces.flatten := by
  induction pieces generalizing s with
  | nil => exact ⟨s, rfl, hport, rfl⟩
  | cons p ps ih =>
    obtain ⟨hp, hps⟩ := List.forall_mem_cons.mp hlen
    obtain ⟨m, hstep, hmport, hmctx⟩ := step_inputTransaction hport hp hfin hcorr
    obtain ⟨t, hrun, htport, htctx⟩ := ih hmport hps (by simp [hmctx, hfin]) (by simp [hmctx, hcorr])
    refine ⟨t, (runSteps_succ ps.length hstep).trans hrun, htport, ?_⟩
    rw [htctx, hmctx, List.flatten_cons, Context.absorbAll_append]

/-- Settles O20: both runs leave the context that has absorbed the message, stale bytes included, and the beats of the
RESULT are a function of that context. -/
theorem chunkInvariance : Obligations.ChunkInvariance := by
  intro s ps qs hsame hlen hfin hcorr
  obtain ⟨hps, hqs⟩ := List.forall_mem_append.mp hlen
  obtain ⟨t, htrun, htport, htctx⟩ := runsTo_inputMoves (s := { s with port := inputMoves ps }) rfl hps hfin hcorr
  obtain ⟨u, hurun, huport, huctx⟩ := runsTo_inputMoves (s := { s with port := inputMoves qs }) rfl hqs hfin hcorr
  have hctx : t.ctx = u.ctx := by rw [htctx, huctx, hsame]
  have htfin : t.ctx.fin = false := by simp [htctx, hfin]
  have htcorr : t.ctx.corr = .none := by simp [htctx, hcorr]
  have hresult : ∃ t' u' out, exec (.result true) t = .next t' ∧ exec (.result true) u = .next u' ∧
      t'.trace = t.trace ++ out ∧ u'.trace = u.trace ++ out :=
    ⟨_, _, (digest t.ctx.finalize.h).map .dout ++ [.rsp .ok], exec_result_finalizes htfin htcorr,
      exec_result_finalizes (hctx ▸ htfin) (hctx ▸ htcorr), by simp, by simp [hctx]⟩
  exact ⟨t, u, htrun, hurun, htport, huport, congrArg Context.h hctx, congrArg Context.idx hctx,
    congrArg Context.bitlen hctx, fun j hj _ => by simp only [hctx], congrArg Context.fin hctx,
    congrArg Context.corr hctx, hresult⟩

end Sys2Proof.Machine
end

