-- ==== Sys2Proof/Proofs/RoundFunctions.lean ====
section
/-! PROOFS. The round functions and constants of the four stages (42_compression.md R67 to R70). -/

namespace Sys2Proof.Machine

/-! ### By stage -/

/-- Stage 1 (R70). -/
theorem roundFunction_stage1 {t : Nat} (h : t < 20) : roundFunction t = choose := by
  funext b c d
  simp only [roundFunction, if_pos h]

/-- Stage 2 (R70). -/
theorem roundFunction_stage2 {t : Nat} (hlo : 20 ≤ t) (hhi : t < 40) : roundFunction t = parity := by
  funext b c d
  simp only [roundFunction, if_neg hlo.not_gt, if_pos hhi]

/-- Stage 3 (R70). -/
theorem roundFunction_stage3 {t : Nat} (hlo : 40 ≤ t) (hhi : t < 60) : roundFunction t = majority := by
  funext b c d
  have h20 : ¬t < 20 := by omega
  simp only [roundFunction, if_neg h20, if_neg hlo.not_gt, if_pos hhi]

/-- Stage 4 (R70). -/
theorem roundFunction_stage4 {t : Nat} (hlo : 60 ≤ t) : roundFunction t = parity := by
  funext b c d
  have h20 : ¬t < 20 := by omega
  have h40 : ¬t < 40 := by omega
  simp only [roundFunction, if_neg h20, if_neg h40, if_neg hlo.not_gt]

/-- Settles O25: each range of 20 rounds decides the comparisons of `roundConstant` and `roundFunction`. -/
theorem roundConstantsByStage : Obligations.RoundConstantsByStage := by
  intro t
  refine ⟨fun h => ⟨if_pos h, roundFunction_stage1 h⟩, fun hlo hhi => ⟨?_, roundFunction_stage2 hlo hhi⟩,
    fun hlo hhi => ⟨?_, roundFunction_stage3 hlo hhi⟩, fun hlo _ => ⟨?_, roundFunction_stage4 hlo⟩⟩
  · rw [roundConstant, if_neg (by omega), if_pos hhi]
  · rw [roundConstant, if_neg (by omega), if_neg (by omega), if_pos hhi]
  · rw [roundConstant, if_neg (by omega), if_neg (by omega), if_neg (by omega)]

/-! ### Bit by bit -/

/-- Each bit of B chooses between C and D (R67). -/
theorem getLsbD_choose (b c d : Word) (i : Nat) :
    (choose b c d).getLsbD i = if b.getLsbD i then c.getLsbD i else d.getLsbD i := by
  by_cases hi : i < 32
  · have hbit : (choose b c d).getLsbD i = (b.getLsbD i && c.getLsbD i || !b.getLsbD i && d.getLsbD i) := by
      simp only [choose, BitVec.getLsbD_or, BitVec.getLsbD_and, BitVec.getLsbD_not, hi, decide_true, Bool.true_and]
    rw [hbit]
    cases b.getLsbD i <;> simp
  · simp [BitVec.getLsbD_of_ge _ i (not_lt.mp hi)]

/-- Of three bits, the majority is the one at least two of them hold. -/
theorem or_and_eq_iff_two_le_count (x y z v : Bool) :
    (x && y || x && z || y && z) = v ↔ 2 ≤ [x, y, z].count v := by
  revert x y z v
  decide

/-- Each bit is the value at least two of B, C and D hold (R69). -/
theorem getLsbD_majority_eq_iff (b c d : Word) (i : Nat) (v : Bool) :
    (majority b c d).getLsbD i = v ↔ 2 ≤ [b.getLsbD i, c.getLsbD i, d.getLsbD i].count v := by
  rw [← or_and_eq_iff_two_le_count]
  simp only [majority, BitVec.getLsbD_or, BitVec.getLsbD_and]

/-- Settles O24: the stage gives the function, whose bits are `getLsbD_choose` and `getLsbD_majority_eq_iff`. -/
theorem roundFunctionsByStage : Obligations.RoundFunctionsByStage := by
  intro t b c d
  refine ⟨fun h => ?_, fun h => ?_, fun hlo hhi => ?_⟩
  · rw [roundFunction_stage1 h]
    exact ⟨rfl, getLsbD_choose b c d⟩
  · have hparity : roundFunction t = parity :=
      h.elim (fun h2 => roundFunction_stage2 h2.1 h2.2) (fun h4 => roundFunction_stage4 h4.1)
    rw [hparity]
    rfl
  · rw [roundFunction_stage3 hlo hhi]
    exact ⟨rfl, getLsbD_majority_eq_iff b c d⟩

end Sys2Proof.Machine
end

