-- ==== Sys2Proof/Proofs/Schedule.lean ====
section
/-! PROOFS. The schedule of a block (42_compression.md R65, R66). -/

namespace Sys2Proof.Machine

/-- R66 for words held oldest first: every word from the 16th on comes from four earlier ones. -/
def ObeysRecurrence (ws : List Word) : Prop :=
  ∀ t, 16 ≤ t → t < ws.length →
    ws.getD t 0#32 = rotl 1 (ws.getD (t - 3) 0#32 ^^^ ws.getD (t - 8) 0#32 ^^^ ws.getD (t - 14) 0#32 ^^^
      ws.getD (t - 16) 0#32)

/-- Words 0 to 15, oldest first, read from the block (R65). -/
def blockWords (blk : Vector Byte 64) : List Word := (List.finRange 16).map (blockWord blk)

@[simp] theorem length_blockWords (blk : Vector Byte 64) : (blockWords blk).length = 16 := by
  simp [blockWords]

/-- The schedule extends the block's words by 64 (R65, R66). -/
theorem schedule_eq_extendSchedule (blk : Vector Byte 64) :
    schedule blk = (extendSchedule 64 (blockWords blk).reverse).reverse := rfl

/-- Word `t` of the block is its `t`-th group of four bytes (R65). -/
theorem getD_blockWords (blk : Vector Byte 64) {t : Nat} (ht : t < 16) :
    (blockWords blk).getD t 0#32 = be32 blk[4 * t] blk[4 * t + 1] blk[4 * t + 2] blk[4 * t + 3] := by
  rw [List.getD_eq_getElem _ _ (by simpa using ht)]
  simp [blockWords, blockWord]

/-- A word newest first, read from the end of the words oldest first. -/
theorem getD_eq_getD_reverse (ws : List Word) {k : Nat} (hk : k < ws.length) :
    ws.getD k 0#32 = ws.reverse.getD (ws.length - 1 - k) 0#32 := by
  rw [List.getD_reverse _ (by omega)]
  congr 1
  omega

/-- `nextWord` is the right-hand side of R66 at the place the new word takes. -/
theorem nextWord_eq {ws : List Word} (hlen : 16 ≤ ws.length) :
    nextWord ws = rotl 1 (ws.reverse.getD (ws.length - 3) 0#32 ^^^ ws.reverse.getD (ws.length - 8) 0#32 ^^^
      ws.reverse.getD (ws.length - 14) 0#32 ^^^ ws.reverse.getD (ws.length - 16) 0#32) := by
  rw [nextWord, getD_eq_getD_reverse ws (k := 2) (by omega), getD_eq_getD_reverse ws (k := 7) (by omega),
    getD_eq_getD_reverse ws (k := 13) (by omega), getD_eq_getD_reverse ws (k := 15) (by omega)]
  simp only [Nat.sub_sub, Nat.reduceAdd]

/-- Adding `nextWord` keeps the recurrence. -/
theorem obeysRecurrence_nextWord_cons {ws : List Word} (hlen : 16 ≤ ws.length) (h : ObeysRecurrence ws.reverse) :
    ObeysRecurrence (nextWord ws :: ws).reverse := by
  have hold : ∀ i, i < ws.length → (nextWord ws :: ws).reverse.getD i 0#32 = ws.reverse.getD i 0#32 := by
    intro i hi
    rw [List.reverse_cons, List.getD_append _ _ _ _ (by simpa using hi)]
  intro t hlo hhi
  rw [List.length_reverse, List.length_cons] at hhi
  rw [hold (t - 3) (by omega), hold (t - 8) (by omega), hold (t - 14) (by omega), hold (t - 16) (by omega)]
  rcases Nat.lt_succ_iff_lt_or_eq.mp hhi with hlt | rfl
  · rw [hold t hlt]
    exact h t hlo (by simpa using hlt)
  · rw [← nextWord_eq hlen, List.reverse_cons, List.getD_append_right _ _ _ _ (by simp)]
    simp

@[simp] theorem length_extendSchedule (n : Nat) (ws : List Word) :
    (extendSchedule n ws).length = ws.length + n := by
  induction n generalizing ws with
  | zero => rfl
  | succ n ih => rw [extendSchedule, ih, List.length_cons]; omega

/-- Extending a schedule keeps the words it has. -/
theorem reverse_isPrefix_extendSchedule (n : Nat) (ws : List Word) :
    ws.reverse <+: (extendSchedule n ws).reverse := by
  induction n generalizing ws with
  | zero => exact ⟨[], List.append_nil _⟩
  | succ n ih =>
    have hstep : ws.reverse <+: (nextWord ws :: ws).reverse := ⟨[nextWord ws], List.reverse_cons.symm⟩
    exact hstep.trans (ih (nextWord ws :: ws))

/-- Extending a schedule of 16 words or more keeps the recurrence. -/
theorem obeysRecurrence_extendSchedule (n : Nat) {ws : List Word} (hlen : 16 ≤ ws.length)
    (h : ObeysRecurrence ws.reverse) : ObeysRecurrence (extendSchedule n ws).reverse := by
  induction n generalizing ws with
  | zero => exact h
  | succ n ih => exact ih (hlen.trans (by simp)) (obeysRecurrence_nextWord_cons hlen h)

@[simp] theorem length_schedule (blk : Vector Byte 64) : (schedule blk).length = 80 := by
  simp [schedule_eq_extendSchedule]

/-- Words 0 to 15 are the block's (R65). -/
theorem getD_schedule_of_lt (blk : Vector Byte 64) {t : Nat} (ht : t < 16) :
    (schedule blk).getD t 0#32 = (blockWords blk).getD t 0#32 := by
  obtain ⟨later, hsplit⟩ := reverse_isPrefix_extendSchedule 64 (blockWords blk).reverse
  rw [schedule_eq_extendSchedule, ← hsplit, List.reverse_reverse,
    List.getD_append _ _ _ _ (by simpa using ht)]

/-- The schedule follows the recurrence, which asks nothing of the block's 16 words alone (R66). -/
theorem obeysRecurrence_schedule (blk : Vector Byte 64) : ObeysRecurrence (schedule blk) := by
  refine obeysRecurrence_extendSchedule 64 (ws := (blockWords blk).reverse) (by simp) ?_
  intro t hlo hhi
  rw [List.length_reverse, List.length_reverse, length_blockWords] at hhi
  omega

/-- Settles O23: the block's words stay in front while the recurrence adds the 64 others. -/
theorem scheduleIsTheBlockThenTheRecurrence : Obligations.ScheduleIsTheBlockThenTheRecurrence := by
  intro blk
  refine ⟨length_schedule blk, fun t ht => ?_, fun t hlo hhi => ?_⟩
  · rw [getD_schedule_of_lt blk ht, getD_blockWords blk ht]
  · exact obeysRecurrence_schedule blk t hlo (by simpa using hhi)

end Sys2Proof.Machine
end

