-- ==== Sys2Proof/Proofs/Compress.lean ====
section
/-! PROOFS. COMPRESS as any run of the 80 rounds (42_compression.md R64, R71 to R73). -/

namespace Sys2Proof.Machine

/-- Any words that obey R65 and R66 are the words of the schedule: they start alike and have the same recurrence. -/
theorem getD_schedule_eq {blk : Vector Byte 64} {W : Nat → Word}
    (hblock : ∀ (t : Nat) (_ : t < 16), W t = be32 blk[4 * t] blk[4 * t + 1] blk[4 * t + 2] blk[4 * t + 3])
    (hrec : ∀ t, 16 ≤ t → t < 80 → W t = rotl 1 (W (t - 3) ^^^ W (t - 8) ^^^ W (t - 14) ^^^ W (t - 16)))
    {t : Nat} (ht : t < 80) : (schedule blk).getD t 0#32 = W t := by
  obtain ⟨-, hfirst, hlater⟩ := scheduleIsTheBlockThenTheRecurrence blk
  induction t using Nat.strong_induction_on with
  | _ t ih =>
    by_cases h16 : t < 16
    · rw [hfirst t h16, hblock t h16]
    · have hlo : 16 ≤ t := not_lt.mp h16
      rw [hlater t hlo ht, hrec t hlo ht, ih (t - 3) (by omega) (by omega), ih (t - 8) (by omega) (by omega),
        ih (t - 14) (by omega) (by omega), ih (t - 16) (by omega) (by omega)]

/-- The working variables before round `t` of five sequences (R71). -/
def varsAt (A B C D E : Nat → Word) (t : Nat) : Vars := ⟨A t, B t, C t, D t, E t⟩

/-- A sequence of variables that obeys the round rule from `t` on is what the rounds compute (R72). -/
theorem rounds_eq {ws : List Word} {v : Nat → Vars} {t : Nat}
    (hstep : ∀ i, i < ws.length → v (t + i + 1) = roundStep (t + i) (ws.getD i 0#32) (v (t + i))) :
    rounds t ws (v t) = v (t + ws.length) := by
  induction ws generalizing t with
  | nil => rfl
  | cons w ws ih =>
    have hfirst : roundStep t w (v t) = v (t + 1) := (hstep 0 (by simp)).symm
    rw [rounds, hfirst, ih fun i hi => ?_]
    · congr 1
      rw [List.length_cons]
      omega
    · have hnext := hstep (i + 1) (by simpa using hi)
      rwa [List.getD_cons_succ, show t + (i + 1) = t + 1 + i by omega] at hnext

/-- Settles O26: the words are the schedule's (`getD_schedule_eq`), so the variables are those of the rounds
(`rounds_eq`). -/
theorem compressIsEightyRounds : Obligations.CompressIsEightyRounds := by
  intro h blk W A B C D E hblock hrec hA hB hC hD hE hround
  have hload : Vars.load h = varsAt A B C D E 0 := by
    rw [Vars.load, varsAt, hA, hB, hC, hD, hE]
  have hstep : ∀ i, i < (schedule blk).length → varsAt A B C D E (0 + i + 1) =
      roundStep (0 + i) ((schedule blk).getD i 0#32) (varsAt A B C D E (0 + i)) := by
    intro t ht
    rw [length_schedule] at ht
    obtain ⟨ha, hb, hc, hd, he⟩ := hround t ht
    rw [getD_schedule_eq hblock hrec ht, Nat.zero_add, varsAt, ha, hb, hc, hd, he]
    rfl
  rw [compress, hload, rounds_eq hstep, length_schedule]
  rfl

end Sys2Proof.Machine
end

