-- ==== Sys2Proof/Proofs/Digest.lean ====
section
/-! PROOFS. The digest serializer (43_finalization.md R87). -/

namespace Sys2Proof.Machine

/-- Byte `j` of BYTES32, counted from the most significant (00_scope.md section 4). -/
theorem getElem?_bytes32 (w : Word) {j : Nat} (hj : j < 4) :
    (bytes32 w)[j]? = some (w.extractLsb' (24 - 8 * j) 8) := by
  interval_cases j <;> rfl

/-- Words put out one after another: byte `4 i + j` is byte `j` of word `i`. -/
theorem getElem?_flatMap_bytes32 (ws : List Word) (i : Nat) {j : Nat} (hj : j < 4) :
    (ws.flatMap bytes32)[4 * i + j]? = ws[i]?.map fun w => w.extractLsb' (24 - 8 * j) 8 := by
  induction ws generalizing i with
  | nil => rfl
  | cons w ws ih =>
    rw [List.flatMap_cons]
    cases i with
    | zero =>
      rw [Nat.mul_zero, Nat.zero_add, List.getElem?_append_left (by simpa using hj), getElem?_bytes32 w hj]
      rfl
    | succ i =>
      have hskip : 4 * (i + 1) + j - (bytes32 w).length = 4 * i + j := by rw [length_bytes32]; omega
      rw [List.getElem?_append_right (by rw [length_bytes32]; omega), hskip, ih, List.getElem?_cons_succ]

/-- Settles O33: the digest is the five words of H put out one after another, and `State.emitDigest` writes the trace
alone. -/
theorem digestIsHInBigEndianOrder : Obligations.DigestIsHInBigEndianOrder := by
  refine ⟨fun h i j hi hj => ?_, length_digest, fun _ => rfl⟩
  rw [digest, getElem?_flatMap_bytes32 _ _ hj, Vector.getElem?_toList, Vector.getElem?_eq_getElem hi]
  rfl

end Sys2Proof.Machine
end

