-- ==== Sys2Proof/Proofs/LengthField.lean ====
section
/-! PROOFS. F_LEN and the length field (43_finalization.md R83). -/

namespace Sys2Proof.Machine

/-- Byte `k` of BYTES64, counted from the most significant, as a digit to the base 256. -/
theorem toNat_getD_bytes64 (v : BitVec 64) {k : Nat} (hk : k < 8) :
    ((bytes64 v).getD k 0#8).toNat = v.toNat / 2 ^ (56 - 8 * k) % 2 ^ 8 := by
  have hbyte : (bytes64 v).getD k 0#8 = v.extractLsb' (56 - 8 * k) 8 := by interval_cases k <;> rfl
  rw [hbyte, BitVec.extractLsb'_toNat, Nat.shiftRight_eq_div_pow]

/-- BUF after F_LEN: the length field in its last eight bytes, every other byte as it was (R83). -/
theorem Context.getElem_writeLength (c : Context) {j : Nat} (hj : j < 64) :
    c.writeLength.buf[j] = if 56 ≤ j then (bytes64 c.bitlen.toField).getD (j - 56) 0#8 else c.buf[j] := by
  simp only [writeLength_buf]
  exact getElem_writeField _ _ j hj

/-- BUF[j] of the field F_LEN writes is a digit of BITLEN, at either width: BUF[63] is the lowest (R83). -/
theorem Context.toNat_getElem_writeLength (c : Context) {j : Nat} (hlo : 56 ≤ j) (hj : j < 64) :
    (c.writeLength.buf[j]).toNat = c.bitlen.toNat / 2 ^ (8 * (63 - j)) % 2 ^ 8 := by
  have hplace : 56 - 8 * (j - 56) = 8 * (63 - j) := by omega
  rw [c.getElem_writeLength hj, if_pos hlo, toNat_getD_bytes64 _ (by omega), BitLen.toNat_toField, hplace]

/-- The transition that leaves F_LEN writes the field. -/
theorem padStep_ctx_of_len (p : Nat) {s : State} (hfsm : s.fsm = .len) :
    (padStep ⟨p, s⟩).s.ctx = s.ctx.writeLength := by
  simp [padStep, hfsm]

/-- Settles O30: the bytes are `Context.toNat_getElem_writeLength`; at LEN_WIDTH = 32 the upper four digits of the field
are 0 because BITLEN is below 2^32. -/
theorem lengthFieldIsBigEndian : Obligations.LengthFieldIsBigEndian := by
  intro p s hfsm
  simp only [padStep_ctx_of_len p hfsm]
  refine ⟨fun j hj => ?_, fun v hv => ⟨fun j hj => ?_, fun j hj => ?_⟩, fun v hv j hj => ?_⟩
  · rw [s.ctx.getElem_writeLength (by omega), if_neg (by omega)]
  · have hsmall : v.toNat < 2 ^ (8 * (63 - (56 + j))) :=
      v.isLt.trans_le (Nat.pow_le_pow_right (by decide) (by omega))
    rw [← BitVec.toNat_inj, s.ctx.toNat_getElem_writeLength (by omega), hv, BitLen.toNat, Nat.div_eq_of_lt hsmall]
    rfl
  · have hplace : 8 * (63 - (60 + j)) = 24 - 8 * j := by omega
    rw [s.ctx.toNat_getElem_writeLength (by omega), hv, BitLen.toNat, hplace]
  · have hplace : 8 * (63 - (56 + j)) = 56 - 8 * j := by omega
    rw [s.ctx.toNat_getElem_writeLength (by omega), hv, BitLen.toNat, hplace]

end Sys2Proof.Machine
end

