-- ==== Sys2Proof/Proofs/FinalizeContext.lean ====
section
/-! PROOFS. What FINALIZE leaves in each field, and the blocks it compresses (43_finalization.md R78 to R85). -/

namespace Sys2Proof.Machine

/-! ### The spent fields -/

@[simp] theorem Context.finalize_buf (c : Context) : c.finalize.buf = Vector.replicate 64 0#8 := by
  unfold Context.finalize; simp
@[simp] theorem Context.finalize_fin (c : Context) : c.finalize.fin = true := by
  unfold Context.finalize; simp
@[simp] theorem Context.finalize_idx (c : Context) : c.finalize.idx = 0 := by
  unfold Context.finalize; simp

@[simp] theorem Context.finalize_bitlen (c : Context) : c.finalize.bitlen = c.bitlen.clear := by
  unfold Context.finalize; split <;> simp

@[simp] theorem Context.finalize_corr (c : Context) : c.finalize.corr = c.corr := by
  rw [Context.finalize, clearSpent_corr, blockDone_corr, writeLength_corr]
  split
  · rw [zeroFill_corr, blockDone_corr, zeroFill_corr, markEnd_corr]
  · rw [zeroFill_corr, markEnd_corr]

/-- Settles O31: the first RESULT of a message leaves the fields of `Context.finalize`. -/
theorem finalizeClearsTheContext : Obligations.FinalizeClearsTheContext := by
  intro s hcorr hfin
  exact ⟨_, exec_result_finalizes hfin hcorr, by simp, by simp, by simp, by simp, by simp, by simp [hcorr]⟩

/-! ### The compressed blocks -/

/-- The message bytes, the marker, zeros up to `hi`, and what was in BUF from there on (R78, R80, R82). -/
theorem Context.getElem_markEnd_zeroFill (c : Context) (hi : Nat) {j : Nat} (hj : j < 64) :
    (c.markEnd.zeroFill (c.idx.val + 1) hi).buf[j] =
      if j < c.idx.val then c.buf[j] else if j = c.idx.val then 0x80#8
      else if j < hi then 0x00#8 else c.buf[j] := by
  simp only [zeroFill_buf, markEnd_buf]
  rw [getElem_zeroBytes, Vector.getElem_set]
  rcases lt_trichotomy j c.idx.val with hlt | heq | hgt
  · rw [if_neg (by omega), if_neg (by omega), if_pos hlt]
  · rw [if_neg (by omega), if_pos heq.symm, if_neg (by omega), if_pos heq]
  · have hrange : (c.idx.val + 1 ≤ j ∧ j < hi) ↔ j < hi := by omega
    simp only [hrange, if_neg hgt.not_gt, if_neg hgt.ne, if_neg hgt.ne']

/-- With IDX <= 55, FINALIZE compresses once (R79). -/
theorem Context.finalize_h_of_idx_le {c : Context} (hidx : c.idx.val ≤ 55) :
    c.finalize.h = compress c.h (c.markEnd.zeroFill (c.idx.val + 1) 56).writeLength.buf := by
  have hneeds : c.needsExtraBlock = false := decide_eq_false (by omega)
  simp [Context.finalize, hneeds]

/-- With IDX >= 56, FINALIZE compresses twice (R79). -/
theorem Context.finalize_h_of_le_idx {c : Context} (hidx : 56 ≤ c.idx.val) :
    c.finalize.h = compress (compress c.h (c.markEnd.zeroFill (c.idx.val + 1) 64).buf)
      ((c.markEnd.zeroFill (c.idx.val + 1) 64).blockDone.zeroFill 0 56).writeLength.buf := by
  have hneeds : c.needsExtraBlock = true := decide_eq_true hidx
  simp [Context.finalize, hneeds]

/-- The block of zeros and the length field, which F_FILL_LEN and F_LEN make after an extra block (R82, R83). -/
theorem Context.getElem_zeroFill_writeLength (c : Context) {j : Nat} (hj : j < 64) :
    (c.zeroFill 0 56).writeLength.buf[j] =
      if j < 56 then 0x00#8 else (bytes64 c.bitlen.toField).getD (j - 56) 0#8 := by
  rw [getElem_writeLength _ hj, zeroFill_bitlen]
  by_cases hzero : j < 56
  · simp only [zeroFill_buf]
    rw [if_neg (by omega), getElem_zeroBytes, if_pos ⟨Nat.zero_le j, hzero⟩, if_pos hzero]
  · rw [if_pos (by omega), if_neg hzero]

/-- The block of a message that leaves room for the length field (R78, R82, R83). -/
theorem Context.getElem_markEnd_writeLength {c : Context} (hidx : c.idx.val ≤ 55) {j : Nat} (hj : j < 64) :
    (c.markEnd.zeroFill (c.idx.val + 1) 56).writeLength.buf[j] =
      if j < c.idx.val then c.buf[j] else if j = c.idx.val then 0x80#8
      else if j < 56 then 0x00#8 else (bytes64 c.bitlen.toField).getD (j - 56) 0#8 := by
  rw [getElem_writeLength _ hj, getElem_markEnd_zeroFill _ _ hj]
  by_cases hfield : j < 56
  · simp only [if_pos hfield, if_neg (show ¬56 ≤ j by omega)]
  · simp only [if_neg hfield, if_pos (not_lt.mp hfield), if_neg (show ¬j < c.idx.val by omega),
      if_neg (show ¬j = c.idx.val by omega), zeroFill_bitlen, markEnd_bitlen]

/-- Settles O29: on each side of the branch of R79, the blocks described are byte by byte those FINALIZE compresses. -/
theorem finalizeCompressesThePaddedBlocks : Obligations.FinalizeCompressesThePaddedBlocks := by
  intro s hcorr hfin
  refine ⟨_, exec_result_finalizes hfin hcorr, fun hidx blk hblk => ?_, fun hidx blk₁ blk₂ hblk₁ hblk₂ => ?_⟩
  · have hbuf : (s.ctx.markEnd.zeroFill (s.ctx.idx.val + 1) 56).writeLength.buf = blk :=
      Vector.ext fun j hj => (Context.getElem_markEnd_writeLength hidx hj).trans (hblk j hj).symm
    rw [State.complete_ctx, State.emitDigest_ctx, State.setCtx_ctx, Context.finalize_h_of_idx_le hidx, hbuf]
  · have hfirst : (s.ctx.markEnd.zeroFill (s.ctx.idx.val + 1) 64).buf = blk₁ := by
      refine Vector.ext fun j hj => ?_
      rw [s.ctx.getElem_markEnd_zeroFill 64 hj, hblk₁ j hj, if_pos hj]
    have hsecond : ((s.ctx.markEnd.zeroFill (s.ctx.idx.val + 1) 64).blockDone.zeroFill 0 56).writeLength.buf = blk₂ :=
      Vector.ext fun j hj => (Context.getElem_zeroFill_writeLength _ hj).trans (hblk₂ j hj).symm
    rw [State.complete_ctx, State.emitDigest_ctx, State.setCtx_ctx, Context.finalize_h_of_le_idx hidx, hfirst, hsecond]

end Sys2Proof.Machine
end

