-- ==== Sys2Proof/Proofs/Result.lean ====
section
/-! PROOFS. RESULT: its checks, and a spent context (43_finalization.md R76, R88). -/

namespace Sys2Proof.Machine

/-! ### The ways through R76 -/

/-- The first check: there is no data sink. -/
theorem exec_result_noBuffer (s : State) : exec (.result false) s = .next (s.complete .nullArgument) := rfl

/-- The second check: an error stored earlier is returned. -/
theorem exec_result_failed {s : State} {st : Status} (hcorr : s.ctx.corr.stored = some st) :
    exec (.result true) s = .next (s.complete st) := by
  simp [exec, execResult, hcorr]

/-- Past both checks the FSM runs, from the state FIN selects (R77). -/
theorem exec_result_runs {s : State} (hcorr : s.ctx.corr = .none) :
    exec (.result true) s =
      .next (padRun padTransitions ⟨0, s.setFsm (if s.ctx.fin then .out else .mark)⟩).s := by
  simp [exec, execResult, hcorr, Corr.stored]

/-- F_OUT emits the digest and completes, and F_IDLE follows (R77). -/
theorem padRun_out (n p : Nat) (s : State) :
    (padRun (n + 1) ⟨p, s.setFsm .out⟩).s = s.emitDigest.complete .ok := by
  rw [padRun_succ, padStep_out, padRun_idle n _ rfl, State.emitDigest_setFsm, State.complete_setFsm]

/-- A RESULT on a spent context emits the digest again and writes no field (R88). -/
theorem exec_result_repeats {s : State} (hfin : s.ctx.fin = true) (hcorr : s.ctx.corr = .none) :
    exec (.result true) s = .next (s.emitDigest.complete .ok) := by
  rw [exec_result_runs hcorr, hfin, if_pos rfl, padTransitions, padRun_out]

/-- Settles O27: one clause for each way through R76. -/
theorem resultFollowsItsChecksInOrder : Obligations.ResultFollowsItsChecksInOrder := by
  intro bufp s done
  refine ⟨?_, ?_, ?_, ?_, ?_⟩
  · rintro rfl
    rw [exec_result_noBuffer]
    simp [done, State.complete]
  · rintro rfl hcorr
    rw [exec_result_failed (st := .stateError) (by rw [hcorr]; rfl)]
    simp [done, State.complete]
  · rintro rfl hcorr
    rw [exec_result_failed (st := .corrupted) (by rw [hcorr]; rfl)]
    simp [done, State.complete]
  · rintro rfl hcorr hfin
    exact exec_result_repeats hfin hcorr
  · rintro rfl hcorr hfin
    exact exec_result_finalizes hfin hcorr

/-! ### A spent context -/

/-- An INPUT that finds FIN = 1 leaves H as it is (R59, R88). -/
theorem execInput_h_of_fin {bufp : Bool} {len : Word} {s t : State} (h : execInput bufp len s = .next t)
    (hfin : s.ctx.fin = true) : t.ctx.h = s.ctx.h := by
  obtain hctx | ⟨-, -, -, hctx⟩ | ⟨-, -, hopen, -, -⟩ := execInput_ctx h
  · rw [hctx]
  · rw [hctx, Context.storeStateError_h]
  · exact absurd hfin (by simp [hopen])

/-- A RESULT that finds FIN = 1 leaves the whole context as it is (R76, R88). -/
theorem execResult_ctx_of_fin {bufp : Bool} {s t : State} (h : execResult bufp s = .next t)
    (hfin : s.ctx.fin = true) : t.ctx = s.ctx := by
  obtain ⟨-, rfl⟩ | ⟨-, e, -, rfl⟩ | ⟨-, -, rfl⟩ := execResult_next h
  · rfl
  · rfl
  · rw [hfin, if_pos rfl, padTransitions, padRun_out]
    rfl

/-- Settles O34: the repeated RESULT is `exec_result_repeats`; of the other commands, INPUT can write CORR alone and
RESULT writes nothing. -/
theorem repeatedResultIsIdempotent : Obligations.RepeatedResultIsIdempotent := by
  refine ⟨fun s hfin hcorr => exec_result_repeats hfin hcorr, fun i s t hfin hreset h => ?_⟩
  cases i with
  | reset bufp => exact absurd rfl (hreset bufp)
  | input bufp len => exact ⟨execInput_h_of_fin h hfin, (execInput_fin h).trans hfin⟩
  | result bufp =>
    rw [execResult_ctx_of_fin h hfin]
    exact ⟨rfl, hfin⟩

end Sys2Proof.Machine
end

