-- ==== Sys2Proof/Proofs/FsmTable.lean ====
section
/-! PROOFS. The path of the padding FSM and the range of its fill pointer (43_finalization.md R77). -/

namespace Sys2Proof.Machine

/-- The next-state column of R77's table; `extra` is the branch of R79, which F_MARK alone looks at. -/
def FsmState.next (extra : Bool) : FsmState → FsmState
  | .idle => .idle
  | .mark => if extra then .fillTail else .fillLen
  | .fillTail => .compExtra
  | .compExtra => .fillLen
  | .fillLen => .len
  | .len => .compFinal
  | .compFinal => .clear
  | .clear => .out
  | .out => .idle

/-- A transition goes to the next state of the table. -/
theorem padStep_fsm (r : PadRun) : (padStep r).s.fsm = r.s.fsm.next r.s.ctx.needsExtraBlock := by
  unfold padStep
  cases hfsm : r.s.fsm <;> simp [hfsm, FsmState.next]

/-- No transition takes p past the end of BUF: F_MARK sets it to IDX + 1, and a fill to where it ends. -/
theorem padStep_p_le {r : PadRun} (hp : r.p ≤ 64) : (padStep r).p ≤ 64 := by
  have hidx := r.s.ctx.idx.isLt
  unfold padStep
  cases r.s.fsm <;> simp <;> omega

theorem padRun_p_le (n : Nat) {r : PadRun} (hp : r.p ≤ 64) : (padRun n r).p ≤ 64 := by
  induction n generalizing r with
  | zero => exact hp
  | succ n ih => exact ih (padStep_p_le hp)

/-- From F_MARK the FSM goes through these states, by the branch of R79, and stays in F_IDLE. -/
theorem padRun_mark_fsm (s : State) {k : Nat} (hk : k < 9) :
    (if s.ctx.needsExtraBlock then
      [FsmState.mark, .fillTail, .compExtra, .fillLen, .len, .compFinal, .clear, .out, .idle]
    else [.mark, .fillLen, .len, .compFinal, .clear, .out, .idle, .idle, .idle])[k]? =
      some (padRun k ⟨0, s.setFsm .mark⟩).s.fsm := by
  cases hextra : s.ctx.needsExtraBlock <;>
    interval_cases k <;> simp [padRun_succ_last, padStep_fsm, FsmState.next, hextra]

/-- Settles O28: the path is `padRun_mark_fsm`, the range of p `padRun_p_le`, and the context that of `padRun_mark`. -/
theorem fsmFollowsItsTable : Obligations.FsmFollowsItsTable := by
  intro s k hk
  refine ⟨exec_result_runs, padRun_out 0 0 s, ?_, padRun_p_le k (Nat.zero_le 64), ?_⟩
  · simpa [Context.needsExtraBlock] using padRun_mark_fsm s hk
  · exact congrArg State.ctx (padRun_mark s)

end Sys2Proof.Machine
end

