-- ==== Sys2Proof/Proofs/Errors.lean ====
section
/-! PROOFS. What an error changes, and how long it stays (60_exceptions.md R93, R94). -/

namespace Sys2Proof.Machine

/-! ### The status a command completes with -/

/-- The last beat of a transaction is its status (R45 step 5). -/
theorem State.getLast?_trace_complete (st : Status) (s : State) :
    (s.complete st).trace.getLast? = some (.rsp st) := List.getLast?_concat

theorem State.getLast?_trace_complete_eq_iff {st st' : Status} {s : State} :
    (s.complete st).trace.getLast? = some (.rsp st') ↔ st = st' := by
  rw [State.getLast?_trace_complete, Option.some.injEq, Beat.rsp.injEq]

/-- A RESULT that passes both its checks completes with OK, whether or not it finalizes (R76). -/
theorem exec_result_getLast?_trace_of_corr {s t : State} (hcorr : s.ctx.corr = .none)
    (h : exec (.result true) s = .next t) : t.trace.getLast? = some (.rsp .ok) := by
  cases hfin : s.ctx.fin with
  | true =>
    cases (exec_result_repeats hfin hcorr).symm.trans h
    exact State.getLast?_trace_complete _ _
  | false =>
    cases (exec_result_finalizes hfin hcorr).symm.trans h
    simp

/-! ### What a command that completes with an error has done -/

/-- An INPUT that ends in an error has let its data phase pass and, outside check 3 of R59, written no context field. -/
theorem exec_input_error {bufp : Bool} {len : Word} {s t : State} {st : Status}
    (hframed : s.din.length = dataBeats (.input bufp len)) (h : exec (.input bufp len) s = .next t)
    (hlast : t.trace.getLast? = some (.rsp st)) (hst : st ≠ .ok) :
    t.trace = s.trace ++ s.din.map .din ++ [.rsp st] ∧
      (t.ctx = s.ctx ∨ (s.ctx.fin = true ∧ len ≠ 0#32 ∧ bufp = true)) := by
  obtain ⟨-, ⟨-, rfl⟩ | ⟨-, rfl, rfl⟩ | ⟨hlen, rfl, hfin, rfl⟩ | ⟨-, rfl, -, e, -, rfl⟩ | ⟨-, -, -, -, rfl⟩⟩ :=
      execInput_next h <;>
    obtain rfl := State.getLast?_trace_complete_eq_iff.mp hlast
  · exact absurd rfl hst
  · have hnone : s.din = [] := List.length_eq_zero_iff.mp hframed
    simp [hnone]
  · exact ⟨rfl, .inr ⟨hfin, hlen, rfl⟩⟩
  · exact ⟨rfl, .inl rfl⟩
  · exact absurd rfl hst

/-- A RESULT that ends in an error has emitted no digest and written no context field (R76). -/
theorem exec_result_error {bufp : Bool} {s t : State} {st : Status} (h : exec (.result bufp) s = .next t)
    (hlast : t.trace.getLast? = some (.rsp st)) (hst : st ≠ .ok) :
    t.trace = s.trace ++ [.rsp st] ∧ t.ctx = s.ctx := by
  obtain ⟨-, rfl⟩ | ⟨-, e, -, rfl⟩ | ⟨rfl, hcorr, -⟩ := execResult_next h
  · obtain rfl := State.getLast?_trace_complete_eq_iff.mp hlast
    exact ⟨rfl, rfl⟩
  · obtain rfl := State.getLast?_trace_complete_eq_iff.mp hlast
    exact ⟨rfl, rfl⟩
  · have hok := exec_result_getLast?_trace_of_corr hcorr h
    exact absurd (by simpa [hlast] using hok) hst

/-- A command that ends in an error has taken its data phase and put out its status alone. It has written a context
field only if it is an INPUT of bytes that finds FIN = 1 (R93). -/
theorem exec_error {i : Instr} {s t : State} {st : Status} (hframed : s.din.length = dataBeats i)
    (h : exec i s = .next t) (hlast : t.trace.getLast? = some (.rsp st)) (hst : st ≠ .ok) :
    t.trace = s.trace ++ s.din.map .din ++ [.rsp st] ∧
      (t.ctx = s.ctx ∨ (s.ctx.fin = true ∧ ∃ len, len ≠ 0#32 ∧ i = .input true len)) := by
  cases i with
  | reset bufp =>
    cases (exec_reset bufp s).symm.trans h
    exact absurd (State.getLast?_trace_complete_eq_iff.mp hlast).symm hst
  | input bufp len =>
    obtain ⟨htrace, hctx | ⟨hfin, hlen, rfl⟩⟩ := exec_input_error hframed h hlast hst
    · exact ⟨htrace, .inl hctx⟩
    · exact ⟨htrace, .inr ⟨hfin, len, hlen, rfl⟩⟩
  | result bufp =>
    obtain ⟨htrace, hctx⟩ := exec_result_error h hlast hst
    have hnone : s.din = [] := List.length_eq_zero_iff.mp hframed
    exact ⟨by simp [htrace, hnone], .inl hctx⟩

/-- A transaction that is an INPUT of bytes and finds FIN = 1 stores STATE_ERROR and completes with it (R59 check 3). -/
theorem runTransaction_input_spent {t : Transaction} {s s' : State} {len : Word} (hlen : len ≠ 0#32)
    (hdec : decode t.cmdBeats = .instr (.input true len)) (hfin : s.ctx.fin = true)
    (h : runTransaction t s = .next s') :
    s'.ctx = s.ctx.storeStateError ∧ s'.trace.getLast? = some (.rsp .stateError) := by
  obtain ⟨i, hi, hframed, hexec⟩ | ⟨n, hn, -, -⟩ := runTransaction_next h
  · cases hdec.symm.trans hi
    cases (exec_input_spent (s := s.receive t) hframed hlen hfin).symm.trans hexec
    exact ⟨rfl, State.getLast?_trace_complete _ _⟩
  · cases hdec.symm.trans hn

/-- Settles O38: check 3 is `runTransaction_input_spent`; the other errors are those of an instruction (`exec_error`)
and of an illegal word. -/
theorem errorsChangeNothingButCorr : Obligations.ErrorsChangeNothingButCorr := by
  intro s s' t rest hport hstep late
  rw [step_transaction hport] at hstep
  refine ⟨fun ⟨hfin, len, hlen, hdec⟩ =>
    runTransaction_input_spent (s := { s with port := rest }) hlen hdec hfin hstep, fun st hlast hst => ?_⟩
  obtain ⟨i, hi, hframed, hexec⟩ | ⟨n, -, -, rfl⟩ := runTransaction_next hstep
  · obtain ⟨htrace, hctx⟩ := exec_error hframed hexec hlast hst
    refine ⟨htrace, fun hnot => hctx.resolve_right ?_⟩
    rintro ⟨hfin, len, hlen, rfl⟩
    exact hnot ⟨hfin, len, hlen, hi⟩
  · obtain rfl := State.getLast?_trace_complete_eq_iff.mp hlast
    exact ⟨rfl, fun _ => rfl⟩

/-! ### A stored error -/

/-- The invariant leaves one error to store: STATE_ERROR, in a spent context (R18, R22). -/
theorem Context.Inv.fin_and_corr_of_error {c : Context} (hinv : c.Inv) (herr : c.corr ≠ .none) :
    c.fin = true ∧ c.corr = .stateError := by
  refine ⟨hinv.errorIsSpent herr, ?_⟩
  cases hcorr : c.corr with
  | none => exact absurd hcorr herr
  | stateError => rfl
  | corrupted => exact absurd hcorr hinv.notCorrupted

/-- No command but RESET overwrites a stored STATE_ERROR: CORR's other writer stores that very value (R19). -/
theorem exec_corr_of_stateError {i : Instr} {s t : State} (hcorr : s.ctx.corr = .stateError)
    (hreset : ∀ b, i ≠ .reset b) (h : exec i s = .next t) : t.ctx.corr = s.ctx.corr := by
  by_contra hne
  obtain ⟨-, hwriters⟩ := flagWritersAreAsListed.1 i s t h
  obtain ⟨hset, -⟩ | ⟨-, b, hb⟩ := hwriters hne
  · exact hne (hset.trans hcorr.symm)
  · exact hreset b hb

/-- Settles O39: the stored error is a STATE_ERROR with FIN = 1 (`Context.Inv.fin_and_corr_of_error`), so INPUT returns
it by check 3 of R59 and RESULT by the second check of R76. -/
theorem storedErrorPersistsUntilReset : Obligations.StoredErrorPersistsUntilReset := by
  intro s hinv herr
  obtain ⟨hfin, hcorr⟩ := hinv.fin_and_corr_of_error herr
  have hstored : s.ctx.corr.stored = some .stateError := by rw [hcorr]; rfl
  refine ⟨fun i t hreset h => exec_corr_of_stateError hcorr hreset h, rfl,
    ⟨.stateError, hstored, fun len hlen hframed => ?_, ?_⟩, fun b => ?_, fun hnone => ?_, ?_, fun len hlen => ?_, ?_⟩
  · exact ⟨_, exec_input_spent hframed hlen hfin, State.getLast?_trace_complete _ _⟩
  · exact ⟨_, exec_result_failed hstored, State.getLast?_trace_complete _ _⟩
  · exact ⟨_, exec_reset b s, rfl⟩
  · exact ⟨_, exec_input_empty fun _ => by rw [hnone]; rfl, State.getLast?_trace_complete _ _⟩
  · exact ⟨_, exec_input_empty nofun, State.getLast?_trace_complete _ _⟩
  · exact ⟨_, exec_input_noBuffer s hlen, State.getLast?_trace_complete _ _⟩
  · exact ⟨_, exec_result_noBuffer s, State.getLast?_trace_complete _ _⟩

end Sys2Proof.Machine
end


-- ==== Sys2Proof/Proofs/ResetState.lean ====
section
/-! PROOFS. The state after power-on reset and after RESET (70_reset_and_hazards.md R106). -/

namespace Sys2Proof.Machine

/-- Both ways to a reset state leave the initial context of some width, and the padding FSM in F_IDLE (R105, R106). -/
theorem ctx_eq_init_and_fsm_idle_of_reset {w : LenWidth} {s : State}
    (hreset : s = State.resetOf w ∨ ∃ b s₀, exec (.reset b) s₀ = .next s) :
    (∃ w', s.ctx = .init w') ∧ s.fsm = .idle := by
  obtain rfl | ⟨b, s₀, hexec⟩ := hreset
  · exact ⟨⟨w, rfl⟩, rfl⟩
  · cases (exec_reset b s₀).symm.trans hexec
    exact ⟨⟨s₀.ctx.bitlen.lenWidth, rfl⟩, rfl⟩

/-- Settles O11: the fields are those of `Context.init`, whichever way the state was reset. -/
theorem resetStateIsAsTabled : Obligations.ResetStateIsAsTabled := by
  refine ⟨fun w s hreset => ?_, rfl⟩
  obtain ⟨⟨w', hctx⟩, hfsm⟩ := ctx_eq_init_and_fsm_idle_of_reset hreset
  rw [hctx]
  exact ⟨rfl, fun j hj => Vector.getElem_replicate hj, rfl, BitLen.toNat_zero w', rfl, rfl, hfsm⟩

end Sys2Proof.Machine
end

