-- ==== Sys2Proof/Proofs/Encoding.lean ====
section
/-! PROOFS. The decoder and the encoder agree, and what the command lines stand for (30_encoding.md R46 to R57). -/

namespace Sys2Proof

/-! ### Decode and encode -/

/-- A legal word is the command word of a legal OP (R53, R55). -/
theorem eq_commandWord_of_legal {cmd : Word} (hlegal : classify cmd ≠ .illegal) :
    ∃ op bufp, (op = 0b00#2 ∨ op = 0b01#2 ∨ op = 0b10#2) ∧ cmd = commandWord op bufp := by
  have hsix := (sixLegalCommandWords cmd).mp hlegal
  simp only [List.mem_cons, List.not_mem_nil, or_false] at hsix
  obtain rfl | rfl | rfl | rfl | rfl | rfl := hsix
  · exact ⟨0b00#2, false, by decide⟩
  · exact ⟨0b01#2, false, by decide⟩
  · exact ⟨0b10#2, false, by decide⟩
  · exact ⟨0b00#2, true, by decide⟩
  · exact ⟨0b01#2, true, by decide⟩
  · exact ⟨0b10#2, true, by decide⟩

/-- The class of a command word (R51). -/
theorem classify_commandWord (op : BitVec 2) (bufp : Bool) : classify (commandWord op bufp) =
    if op = 0b11#2 then .illegal else if op = 0b00#2 then .reset bufp
    else if op = 0b01#2 then .input bufp else .result bufp := by
  simp [classify]

/-- The decoder reads the beats of every instruction back (R51, R55). -/
@[simp] theorem decode_encode (i : Instr) : decode (encode i) = .instr i := by
  cases i with
  | reset bufp => simp [encode, decode, classify_commandWord]
  | input bufp len => exact Machine.decode_encode_input bufp len
  | result bufp => simp [encode, decode, classify_commandWord]

/-- An illegal word decodes to no instruction, whatever follows it (R52). -/
theorem decode_ne_instr_of_illegal {cmd : Word} (more : List Word) (i : Instr) (hcmd : classify cmd = .illegal) :
    decode (cmd :: more) ≠ .instr i := by
  match more with
  | [] => by_cases hop : opField cmd = 0b01#2 <;> simp [decode, hop, hcmd]
  | [len] => by_cases hop : opField cmd = 0b01#2 <;> simp [decode, hop, hcmd]
  | _ :: _ :: _ => simp [decode]

/-- Of a command word with a legal OP, the decoder takes the beats of its encoding alone (R45, R51). -/
theorem eq_encode_of_decode_commandWord {op : BitVec 2} {bufp : Bool} {more : List Word} {i : Instr}
    (hop : op = 0b00#2 ∨ op = 0b01#2 ∨ op = 0b10#2) (h : decode (commandWord op bufp :: more) = .instr i) :
    commandWord op bufp :: more = encode i := by
  obtain rfl | rfl | rfl := hop
  · match more, h with
    | [], h => cases (decode_encode (.reset bufp)).symm.trans h; rfl
    | [_], h => simp [decode] at h
    | _ :: _ :: _, h => simp [decode] at h
  · match more, h with
    | [], h => simp [decode] at h
    | [len], h => cases (decode_encode (.input bufp len)).symm.trans h; rfl
    | _ :: _ :: _, h => simp [decode] at h
  · match more, h with
    | [], h => cases (decode_encode (.result bufp)).symm.trans h; rfl
    | [_], h => simp [decode] at h
    | _ :: _ :: _, h => simp [decode] at h

/-- Settles O1: an encoding decodes to its instruction (`decode_encode`), and beats that decode to an instruction start
with a legal word, which fixes how many there are. -/
theorem decodeAndEncodeAgree : Obligations.DecodeAndEncodeAgree := by
  refine fun ws i => ⟨fun h => ?_, fun h => h ▸ decode_encode i⟩
  match ws, h with
  | cmd :: more, h =>
    obtain ⟨op, bufp, hop, rfl⟩ :=
      eq_commandWord_of_legal fun hcmd => decode_ne_instr_of_illegal more i hcmd h
    exact eq_encode_of_decode_commandWord hop h

/-- Settles O4: twelve closed words. -/
theorem specWordsDecode : Obligations.SpecWordsDecode := by
  unfold Obligations.SpecWordsDecode
  decide

/-! ### The assembler -/

/-- Settles O5: each line stands for the beats of its encoding; the length of a repeated literal is a product. -/
theorem assemblerLinesGiveTheirBeats : Obligations.AssemblerLinesGiveTheirBeats := by
  refine fun bytes n len w => ⟨rfl, rfl, ?_, rfl, rfl, rfl, rfl, rfl, rfl⟩
  have hlen : (List.replicate n bytes).flatten.length = n * bytes.length := by simp
  rw [Machine.AsmLine.assemble, Machine.inputTransaction, hlen]
  rfl

end Sys2Proof
end

