-- ==== Sys2Proof/Proofs/Framing.lean ====
section
/-! PROOFS. Well-formed transactions are those the decoder takes, and each of them completes (30_encoding.md R45, R50,
R52; 70_reset_and_hazards.md R108). -/

namespace Sys2Proof.Machine

/-! ### Framing and decoding -/

/-- The beats of an instruction are framed by a data phase of the length it announces (R45). -/
theorem wellFormed_encode_iff (i : Instr) (data : List Byte) :
    Transaction.wellFormed ⟨encode i, data⟩ = true ↔ data.length = dataBeats i := by
  cases i with
  | reset bufp => simp [encode, wellFormed_singleton_iff, dataBeats]
  | input bufp len => simp [encode, wellFormed_pair_iff, dataBeats, announcedData]
  | result bufp => simp [encode, wellFormed_singleton_iff, dataBeats]

/-- The framing of a legal command word is that of an instruction (R45, R51). -/
theorem exists_eq_encode_of_wellFormed {cmd : Word} {more : List Word} {data : List Byte}
    (hwf : Transaction.wellFormed ⟨cmd :: more, data⟩ = true) (hlegal : classify cmd ≠ .illegal) :
    ∃ i, cmd :: more = encode i := by
  obtain ⟨op, bufp, hop, rfl⟩ := eq_commandWord_of_legal hlegal
  match more, hwf with
  | [], hwf =>
    obtain ⟨hne, -⟩ := (wellFormed_singleton_iff _ data).mp hwf
    obtain rfl | rfl | rfl := hop
    · exact ⟨.reset bufp, rfl⟩
    · exact absurd (opField_commandWord _ bufp) hne
    · exact ⟨.result bufp, rfl⟩
  | [len], hwf =>
    obtain ⟨heq, -⟩ := (wellFormed_pair_iff _ len data).mp hwf
    obtain rfl : op = 0b01#2 := (opField_commandWord op bufp).symm.trans heq
    exact ⟨.input bufp len, rfl⟩
  | _ :: _ :: _, hwf => simp [Transaction.wellFormed] at hwf

/-- The framing of beats that the decoder rejects as an illegal command (R52). -/
theorem wellFormed_of_decode_illegal {t : Transaction}
    (hdec : decode t.cmdBeats = .reject (.illegalCommand t.data.length)) : t.wellFormed = true := by
  obtain ⟨ws, data⟩ := t
  match ws, hdec with
  | [], hdec => cases hdec
  | [cmd], hdec =>
    refine (wellFormed_singleton_iff cmd data).mpr ?_
    by_cases hop : opField cmd = 0b01#2
    · simp [decode, hop] at hdec
    · cases hcmd : classify cmd <;> simp [decode, hop, hcmd] at hdec
      exact ⟨hop, List.length_eq_zero_iff.mp hdec.symm⟩
  | [cmd, len], hdec =>
    refine (wellFormed_pair_iff cmd len data).mpr ?_
    by_cases hop : opField cmd = 0b01#2
    · cases hcmd : classify cmd <;> simp [decode, hop, hcmd] at hdec <;> exact ⟨hop, hdec.symm⟩
    · simp [decode, hop] at hdec
  | _ :: _ :: _ :: _, hdec => cases hdec

/-- A transaction is well-formed exactly when it is an instruction with its data phase or an illegal word with the one
it announces (R45, R52). -/
theorem wellFormed_iff (t : Transaction) : t.wellFormed = true ↔
    (∃ i, decode t.cmdBeats = .instr i ∧ t.data.length = dataBeats i) ∨
      decode t.cmdBeats = .reject (.illegalCommand t.data.length) := by
  obtain ⟨ws, data⟩ := t
  refine ⟨fun hwf => ?_, ?_⟩
  · match ws, hwf with
    | cmd :: more, hwf =>
      by_cases hcmd : classify cmd = .illegal
      · exact .inr (decode_illegal hwf hcmd)
      · obtain ⟨i, hi⟩ := exists_eq_encode_of_wellFormed hwf hcmd
        rw [hi] at hwf ⊢
        exact .inl ⟨i, decode_encode i, (wellFormed_encode_iff i data).mp hwf⟩
  · rintro (⟨i, hdec, hframed⟩ | hdec)
    · obtain rfl := (decodeAndEncodeAgree ws i).mp hdec
      exact (wellFormed_encode_iff i data).mpr hframed
    · exact wellFormed_of_decode_illegal hdec

/-- The data phase of a well-formed instruction (R45). -/
theorem length_data_of_wellFormed {t : Transaction} {i : Instr} (hwf : t.wellFormed = true)
    (hdec : decode t.cmdBeats = .instr i) : t.data.length = dataBeats i := by
  obtain ⟨ws, data⟩ := t
  obtain rfl := (decodeAndEncodeAgree ws i).mp hdec
  exact (wellFormed_encode_iff i data).mp hwf

/-! ### One step -/

/-- A framed instruction is performed where its beats have been received (R45). -/
theorem runTransaction_instr {t : Transaction} {i : Instr} (s : State) (hdec : decode t.cmdBeats = .instr i)
    (hframed : t.data.length = dataBeats i) : runTransaction t s = exec i (s.receive t) := by
  simp [runTransaction, hdec, hframed]

/-- Settles O6: the framing of an instruction is the length of its data phase, and the step is then
`runTransaction_instr`. -/
theorem stepPerformsTheDecodedCommand : Obligations.StepPerformsTheDecodedCommand := by
  intro s t rest i hport hwf hdec
  rw [step_transaction hport, runTransaction_instr _ hdec (length_data_of_wellFormed hwf hdec)]
  rfl

/-- Settles O10: the step asks the host for its next move, and there is none. -/
theorem idleBlockKeepsItsState : Obligations.IdleBlockKeepsItsState := by
  intro s hport
  simp only [step, nextMove, hport]

/-! ### Refusal -/

/-- Only a well-formed transaction has a next state (R50, R108). -/
theorem wellFormed_of_runTransaction {t : Transaction} {s s' : State} (h : runTransaction t s = .next s') :
    t.wellFormed = true := by
  refine (wellFormed_iff t).mpr ?_
  obtain ⟨i, hdec, hframed, -⟩ | ⟨n, hdec, rfl, -⟩ := runTransaction_next h
  · exact .inl ⟨i, hdec, hframed⟩
  · exact .inr hdec

/-- Settles O9: a malformed transaction has no next state, and there is no fault for it to end in. -/
theorem malformedTransactionIsRefused : Obligations.MalformedTransactionIsRefused := by
  refine ⟨fun s t rest hport hwf => ?_, fun s len hlen => if_pos ⟨rfl, hlen⟩⟩
  rw [step_transaction hport]
  cases hrun : runTransaction t { s with port := rest } with
  | next s' => exact absurd (wellFormed_of_runTransaction hrun) (by simp [hwf])
  | fault r => nomatch r
  | refused r => exact ⟨r, rfl⟩

/-! ### Completion -/

/-- `t` is the state `s` after a command has ended: the data phase has transferred, then the digest bytes `out`, then
the status (R45 steps 3 to 5). -/
structure State.Completes (s : State) (out : List Byte) (st : Status) (t : State) : Prop where
  port  : t.port = s.port
  din   : t.din = []
  fsm   : t.fsm = .idle
  trace : t.trace = s.trace ++ s.din.map .din ++ out.map .dout ++ [.rsp st]

/-- A command with no data phase and no digest. -/
theorem State.Completes.of_noData {s : State} (hdin : s.din = []) (c : Context) (st : Status) :
    s.Completes [] st ((s.setCtx c).complete st) :=
  ⟨rfl, hdin, rfl, by simp [hdin]⟩

/-- A command that takes its data phase and puts out no digest. -/
theorem State.Completes.of_data (s : State) (c : Context) (st : Status) :
    s.Completes [] st ((s.takeDataPhase.setCtx c).complete st) :=
  ⟨rfl, rfl, rfl, by simp⟩

theorem Corr.eq_none_of_stored {c : Corr} (h : c.stored = Option.none) : c = .none := by
  cases c with
  | none => rfl
  | stateError => cases h
  | corrupted => cases h

/-- A stored error is no success, and it is CORRUPTED only where CORR holds that (R91). -/
theorem Corr.of_stored {c : Corr} {st : Status} (h : c.stored = some st) :
    st ≠ .ok ∧ (st = .corrupted → c = .corrupted) := by
  cases c with
  | none => cases h
  | stateError => cases h; exact ⟨nofun, nofun⟩
  | corrupted => cases h; exact ⟨nofun, fun _ => rfl⟩

/-- A framed INPUT completes, and returns CORRUPTED only where CORR holds it (R59). -/
theorem exec_input_completes {bufp : Bool} {len : Word} {s : State}
    (hframed : s.din.length = dataBeats (.input bufp len)) :
    ∃ t st, exec (.input bufp len) s = .next t ∧ s.Completes [] st t ∧
      (st = .corrupted → s.ctx.corr = .corrupted) := by
  cases bufp with
  | false =>
    have hdin : s.din = [] := List.length_eq_zero_iff.mp hframed
    by_cases hlen : len = 0#32
    · subst hlen
      exact ⟨_, .ok, exec_input_empty nofun, .of_noData hdin s.ctx _, nofun⟩
    · exact ⟨_, .nullArgument, exec_input_noBuffer s hlen, .of_noData hdin s.ctx _, nofun⟩
  | true =>
    by_cases hlen : len = 0#32
    · subst hlen
      exact ⟨_, .ok, exec_input_empty fun _ => hframed, .of_data s s.ctx _, nofun⟩
    cases hfin : s.ctx.fin with
    | true => exact ⟨_, .stateError, exec_input_spent hframed hlen hfin, .of_data s _ _, nofun⟩
    | false =>
      cases hstored : s.ctx.corr.stored with
      | none =>
        have haccepts := exec_input_accepts hframed hfin (Corr.eq_none_of_stored hstored)
        exact ⟨_, .ok, haccepts, .of_data s _ _, nofun⟩
      | some st =>
        exact ⟨_, st, exec_input_failed hframed hlen hfin hstored, .of_data s s.ctx _, (Corr.of_stored hstored).2⟩

/-- A RESULT without a stored error emits the digest of the spent context, which it makes if it is not there yet
(R76, R88). -/
theorem exec_result_accepts {s : State} (hcorr : s.ctx.corr = .none) :
    exec (.result true) s =
      .next ((s.setCtx (if s.ctx.fin then s.ctx else s.ctx.finalize)).emitDigest.complete .ok) := by
  cases hfin : s.ctx.fin with
  | true => exact exec_result_repeats hfin hcorr
  | false => exact exec_result_finalizes hfin hcorr

/-- The digest bytes of a command that ends with `st`: 20 for a RESULT that is OK, and otherwise none (R45 step 4). -/
def digestLength (i : Instr) (st : Status) : Nat :=
  match i, st with
  | .result _, .ok => 20
  | _, _ => 0

/-- A RESULT completes, and returns CORRUPTED only where CORR holds it (R76). -/
theorem exec_result_completes (bufp : Bool) {s : State} (hdin : s.din = []) :
    ∃ t out st, exec (.result bufp) s = .next t ∧ s.Completes out st t ∧
      out.length = digestLength (.result bufp) st ∧ (st = .corrupted → s.ctx.corr = .corrupted) := by
  cases bufp with
  | false => exact ⟨_, [], .nullArgument, exec_result_noBuffer s, .of_noData hdin s.ctx _, rfl, nofun⟩
  | true =>
    cases hstored : s.ctx.corr.stored with
    | none =>
      exact ⟨_, digest (if s.ctx.fin then s.ctx else s.ctx.finalize).h, .ok,
        exec_result_accepts (Corr.eq_none_of_stored hstored), ⟨rfl, hdin, rfl, by simp [hdin]⟩, length_digest _, nofun⟩
    | some st =>
      obtain ⟨hok, hcorrupted⟩ := Corr.of_stored hstored
      have hnone : digestLength (.result true) st = 0 := by simp [digestLength, hok]
      exact ⟨_, [], st, exec_result_failed hstored, .of_noData hdin s.ctx _, hnone.symm, hcorrupted⟩

/-- Every framed command completes, from every state (R45). -/
theorem exec_completes {i : Instr} {s : State} (hframed : s.din.length = dataBeats i) :
    ∃ t out st, exec i s = .next t ∧ s.Completes out st t ∧ out.length = digestLength i st ∧
      (st = .corrupted → s.ctx.corr = .corrupted) := by
  cases i with
  | reset bufp =>
    have hdin : s.din = [] := List.length_eq_zero_iff.mp hframed
    exact ⟨_, [], .ok, exec_reset bufp s, .of_noData hdin _ _, rfl, nofun⟩
  | input bufp len =>
    obtain ⟨t, st, hexec, hcompletes, hcorrupted⟩ := exec_input_completes hframed
    exact ⟨t, [], st, hexec, hcompletes, rfl, hcorrupted⟩
  | result bufp => exact exec_result_completes bufp (List.length_eq_zero_iff.mp hframed)

/-- Every well-formed transaction completes, with a digest only for a RESULT that is OK, and with CORRUPTED only where
CORR holds it (R45, R52). -/
theorem runTransaction_completes {t : Transaction} (s : State) (hwf : t.wellFormed = true) :
    ∃ s' out st, runTransaction t s = .next s' ∧ (s.receive t).Completes out st s' ∧
      ((st = .ok ∧ ∃ bufp, decode t.cmdBeats = .instr (.result bufp)) → out.length = 20) ∧
      (¬(st = .ok ∧ ∃ bufp, decode t.cmdBeats = .instr (.result bufp)) → out = []) ∧
      (st = .corrupted → s.ctx.corr = .corrupted) := by
  obtain ⟨i, hdec, hframed⟩ | hdec := (wellFormed_iff t).mp hwf
  · obtain ⟨s', out, st, hexec, hcompletes, hout, hcorrupted⟩ := exec_completes (s := s.receive t) hframed
    refine ⟨s', out, st, (runTransaction_instr s hdec hframed).trans hexec, hcompletes, ?_, fun hno => ?_,
      hcorrupted⟩
    · rintro ⟨rfl, bufp, hresult⟩
      cases hdec.symm.trans hresult
      exact hout
    · refine List.length_eq_zero_iff.mp (hout.trans ?_)
      unfold digestLength
      split
      · exact absurd ⟨rfl, _, hdec⟩ hno
      · rfl
  · refine ⟨_, [], .illegalCommand, runTransaction_illegal s hdec, .of_data (s.receive t) s.ctx _, ?_, fun _ => rfl,
      nofun⟩
    rintro ⟨hok, -⟩
    cases hok

/-- Settles O8: `runTransaction_completes`, with the state that has received the command-channel beats written out. -/
theorem wellFormedTransactionCompletes : Obligations.WellFormedTransactionCompletes := by
  intro s t rest hport hwf
  obtain ⟨s', out, st, hrun, ⟨hrest, hdin, hfsm, htrace⟩, hdigest, hnone, -⟩ :=
    runTransaction_completes { s with port := rest } hwf
  exact ⟨s', out, st, (step_transaction hport).trans hrun, hrest, hdin, hfsm, htrace, hdigest, hnone⟩

end Sys2Proof.Machine
end

