-- ==== Sys2Proof/Proofs/Invariants.lean ====
section
/-! PROOFS. What a step can do to the context, and the invariants that follow (10_state.md R5, R11, R18, R22). -/

namespace Sys2Proof.Machine

/-! ### The changes of a context -/

/-- Every way a step can change a context: it keeps it, resets it, stores STATE_ERROR in a spent one, or absorbs bytes
into or finalizes one that accepts bytes (R19, R24). -/
inductive Context.Change (c : Context) : Context → Prop where
  | keep : Change c c
  | reset : Change c (.init c.bitlen.lenWidth)
  | storeError (hfin : c.fin = true) : Change c c.storeStateError
  | absorb (hfin : c.fin = false) (hcorr : c.corr = .none) (bs : List Byte) : Change c (c.absorbAll bs)
  | finalize (hfin : c.fin = false) (hcorr : c.corr = .none) : Change c c.finalize

/-- The context a RESULT leaves: as it was, or finalized (R76). -/
theorem execResult_ctx {bufp : Bool} {s t : State} (h : execResult bufp s = .next t) :
    t.ctx = s.ctx ∨ (bufp = true ∧ s.ctx.fin = false ∧ s.ctx.corr = .none ∧ t.ctx = s.ctx.finalize) := by
  cases hfin : s.ctx.fin with
  | true => exact .inl (execResult_ctx_of_fin h hfin)
  | false =>
    obtain ⟨-, rfl⟩ | ⟨-, e, -, rfl⟩ | ⟨rfl, hcorr, -⟩ := execResult_next h
    · exact .inl rfl
    · exact .inl rfl
    · cases (exec_result_finalizes hfin hcorr).symm.trans h
      exact .inr ⟨rfl, rfl, hcorr, rfl⟩

/-- A command changes the context in one of the listed ways. -/
theorem exec_change {i : Instr} {s t : State} (h : exec i s = .next t) : s.ctx.Change t.ctx := by
  cases i with
  | reset bufp =>
    cases (exec_reset bufp s).symm.trans h
    exact .reset
  | input bufp len =>
    obtain hctx | ⟨-, -, hfin, hctx⟩ | ⟨-, -, hfin, hcorr, hctx⟩ := execInput_ctx h
    · exact hctx ▸ .keep
    · exact hctx ▸ .storeError hfin
    · exact hctx ▸ .absorb hfin hcorr s.din
  | result bufp =>
    obtain hctx | ⟨-, hfin, hcorr, hctx⟩ := execResult_ctx h
    · exact hctx ▸ .keep
    · exact hctx ▸ .finalize hfin hcorr

theorem runTransaction_change {t : Transaction} {s s' : State} (h : runTransaction t s = .next s') :
    s.ctx.Change s'.ctx := by
  obtain ⟨i, -, -, hexec⟩ | ⟨n, -, -, rfl⟩ := runTransaction_next h
  · exact exec_change (s := s.receive t) hexec
  · exact .keep

/-- What an abandoned command leaves: the state of a power-on reset, with the beats that had transferred (R105). -/
theorem powerOnDuring_next {sent : Transaction} {n : Nat} {s s' : State} (h : powerOnDuring sent n s = .next s') :
    s' = { s.powerOn with
      trace := s.trace ++ sent.cmdBeats.map .cmd ++ sent.data.map .din ++ (digestBeatsOut sent s).take n } := by
  unfold powerOnDuring at h
  split at h
  · cases h; rfl
  · cases h

/-- Whatever the host does, a step changes the context in one of the listed ways. -/
theorem step_change {s s' : State} (h : step s = .next s') : s.ctx.Change s'.ctx := by
  obtain ⟨-, rfl⟩ | ⟨m, rest, -, hmove⟩ := step_next h
  · exact .keep
  · cases m with
    | transaction t => exact runTransaction_change (s := { s with port := rest }) hmove
    | powerOnReset => cases hmove; exact .reset
    | powerOnResetDuring sent n => cases powerOnDuring_next hmove; exact .reset

/-! ### LEN_WIDTH and the writers of H -/

theorem Context.Change.lenWidth {c d : Context} (h : c.Change d) : d.bitlen.lenWidth = c.bitlen.lenWidth := by
  cases h with
  | keep => rfl
  | reset => exact BitLen.lenWidth_zero _
  | storeError => rfl
  | absorb => exact Context.absorbAll_lenWidth _ _
  | finalize => simp

/-- Settles O45: no change of a context changes the width of BITLEN. -/
theorem lenWidthIsFixed : Obligations.LenWidthIsFixed := fun _ _ h => (step_change h).lenWidth

/-- Bytes that do not fill the block leave H as it is (R60). -/
theorem Context.absorbAll_h_of_lt (c : Context) {bs : List Byte} (hroom : c.idx.val + bs.length < 64) :
    (c.absorbAll bs).h = c.h := by
  induction bs generalizing c with
  | nil => rfl
  | cons b bs ih =>
    rw [List.length_cons] at hroom
    obtain ⟨hh, hidx⟩ := c.absorb_of_idx_ne b (by omega)
    rw [absorbAll_cons, ih _ (by omega), hh]

/-- An INPUT that does not absorb its data phase keeps H, BUF, IDX and BITLEN (R24, R59). -/
theorem execInput_registers {bufp : Bool} {len : Word} {s t : State} (h : execInput bufp len s = .next t) :
    (t.ctx.h = s.ctx.h ∧ t.ctx.buf = s.ctx.buf ∧ t.ctx.idx = s.ctx.idx ∧ t.ctx.bitlen = s.ctx.bitlen) ∨
    (bufp = true ∧ s.ctx.fin = false ∧ s.ctx.corr = .none ∧ s.din.length = len.toNat ∧
      t.ctx = s.ctx.absorbAll s.din) := by
  obtain hctx | ⟨-, -, -, hctx⟩ | ⟨-, rfl, hfin, hcorr, hctx⟩ := execInput_ctx h
  · exact .inl (hctx ▸ ⟨rfl, rfl, rfl, rfl⟩)
  · exact .inl (hctx ▸ ⟨rfl, rfl, rfl, rfl⟩)
  · exact .inr ⟨rfl, hfin, hcorr, (execInput_next h).1 rfl, hctx⟩

/-- Settles O42, by the command: an INPUT that does not fill a block keeps H (`Context.absorbAll_h_of_lt`). -/
theorem hashRegisterWritersAreAsListed : Obligations.HashRegisterWritersAreAsListed := by
  intro i s t h hne
  cases i with
  | reset bufp => exact .inl ⟨bufp, rfl⟩
  | input bufp len =>
    obtain ⟨hh, -⟩ | ⟨rfl, hfin, hcorr, hframed, hctx⟩ := execInput_registers h
    · exact absurd hh hne
    · refine .inr (.inl ⟨len, rfl, not_lt.mp fun hroom => hne ?_, hfin, hcorr⟩)
      rw [hctx, s.ctx.absorbAll_h_of_lt (hframed ▸ hroom)]
  | result bufp =>
    obtain hctx | ⟨rfl, hfin, hcorr, -⟩ := execResult_ctx h
    · exact absurd (by rw [hctx]) hne
    · exact .inr (.inr ⟨rfl, hfin, hcorr⟩)

/-! ### The invariants of the register file -/

theorem Context.init_inv (w : LenWidth) : (Context.init w).Inv where
  spentIsClear := nofun
  errorIsSpent h := absurd rfl h
  countsBytes _ := ⟨0, by simp, rfl⟩
  notCorrupted := nofun

theorem Context.Inv.storeStateError {c : Context} (hinv : c.Inv) (hfin : c.fin = true) : c.storeStateError.Inv where
  spentIsClear := hinv.spentIsClear
  errorIsSpent _ := hfin
  countsBytes := hinv.countsBytes
  notCorrupted := nofun

/-- A context that goes on counting: `n` bytes were absorbed before and `bs` now (R22 I-4). -/
theorem Context.Inv.absorbAll {c : Context} (hinv : c.Inv) (hfin : c.fin = false) (hcorr : c.corr = .none)
    (bs : List Byte) : (c.absorbAll bs).Inv where
  spentIsClear h := by simp [hfin] at h
  errorIsSpent h := by simp [hcorr] at h
  countsBytes _ := by
    obtain ⟨n, hbits, hidx⟩ := hinv.countsBytes hfin
    refine ⟨n + bs.length, ?_, ?_⟩
    · rw [absorbAll_bitlen, absorbAll_lenWidth, hbits, Nat.mod_add_mod, Nat.mul_add]
    · rw [absorbAll_idx, hidx, Nat.mod_add_mod]
  notCorrupted := by simp [hcorr]

theorem Context.finalize_inv {c : Context} (hcorr : c.corr = .none) : c.finalize.Inv where
  spentIsClear _ := ⟨c.finalize_idx, by simp, c.finalize_buf⟩
  errorIsSpent _ := c.finalize_fin
  countsBytes h := by simp at h
  notCorrupted := by simp [hcorr]

/-- No change of a context breaks the invariants (R22). -/
theorem Context.Inv.change {c d : Context} (hinv : c.Inv) (h : c.Change d) : d.Inv := by
  cases h with
  | keep => exact hinv
  | reset => exact init_inv _
  | storeError hfin => exact hinv.storeStateError hfin
  | absorb hfin hcorr bs => exact hinv.absorbAll hfin hcorr bs
  | finalize _ hcorr => exact finalize_inv hcorr

/-- A transaction that has a next state has completed (R45). -/
theorem completes_of_runTransaction {t : Transaction} {s s' : State} (h : runTransaction t s = .next s') :
    ∃ out st, (s.receive t).Completes out st s' ∧ (st = .corrupted → s.ctx.corr = .corrupted) := by
  obtain ⟨u, out, st, hrun, hcompletes, -, -, hcorrupted⟩ :=
    runTransaction_completes s (wellFormed_of_runTransaction h)
  cases hrun.symm.trans h
  exact ⟨out, st, hcompletes, hcorrupted⟩

/-- Between commands the FSM is idle and no data phase is pending, whatever the host does (R104). -/
theorem step_idle {s s' : State} (hfsm : s.fsm = .idle) (hdin : s.din = []) (h : step s = .next s') :
    s'.fsm = .idle ∧ s'.din = [] := by
  obtain ⟨-, rfl⟩ | ⟨m, rest, -, hmove⟩ := step_next h
  · exact ⟨hfsm, hdin⟩
  · cases m with
    | transaction t =>
      obtain ⟨out, st, hcompletes, -⟩ := completes_of_runTransaction hmove
      exact ⟨hcompletes.fsm, hcompletes.din⟩
    | powerOnReset => cases hmove; exact ⟨rfl, rfl⟩
    | powerOnResetDuring sent n => cases powerOnDuring_next hmove; exact ⟨rfl, rfl⟩

/-- Settles O43: the context is one of the changes of `Context.Inv.change`, the rest is `step_idle`. -/
theorem stepKeepsTheInvariants : Obligations.StepKeepsTheInvariants := by
  intro s s' hinv h
  obtain ⟨hfsm, hdin⟩ := step_idle hinv.idle hinv.din h
  exact ⟨hinv.ctx.change (step_change h), hfsm, hdin⟩

/-- Settles O44: `Context.init_inv`, with empty ports. -/
theorem resetMeetsTheInvariants : Obligations.ResetMeetsTheInvariants :=
  fun w => ⟨Context.init_inv w, rfl, rfl⟩

/-! ### CORRUPTED -/

theorem Context.Change.corr_ne_corrupted {c d : Context} (h : c.Change d) (hcorr : c.corr ≠ .corrupted) :
    d.corr ≠ .corrupted := by
  cases h with
  | keep => exact hcorr
  | reset => nofun
  | storeError => nofun
  | absorb => simpa using hcorr
  | finalize => simpa using hcorr

/-- The digest beats of a transaction are no statuses. -/
theorem rsp_not_mem_digestBeatsOut (st : Status) (t : Transaction) (s : State) : .rsp st ∉ digestBeatsOut t s := by
  unfold digestBeatsOut
  split
  · simp [digestBeatsOf]
  · exact List.not_mem_nil

/-- From a state that does not hold CORRUPTED, no step returns it (R91). -/
theorem step_count_corrupted {s s' : State} (hcorr : s.ctx.corr ≠ .corrupted) (h : step s = .next s') :
    s'.trace.count (.rsp .corrupted) = s.trace.count (.rsp .corrupted) := by
  obtain ⟨-, rfl⟩ | ⟨m, rest, -, hmove⟩ := step_next h
  · rfl
  · cases m with
    | transaction t =>
      obtain ⟨out, st, hcompletes, hcorrupted⟩ := completes_of_runTransaction hmove
      have hst : st ≠ .corrupted := fun heq => hcorr (hcorrupted heq)
      simp [hcompletes.trace, List.count_eq_zero, hst.symm]
    | powerOnReset => cases hmove; rfl
    | powerOnResetDuring sent n =>
      have hnone : Beat.rsp .corrupted ∉ (digestBeatsOut sent { s with port := rest }).take n :=
        fun hmem => rsp_not_mem_digestBeatsOut _ _ _ (List.mem_of_mem_take hmem)
      simp [powerOnDuring_next hmove, List.count_eq_zero, hnone]

/-- Settles O40: the context by its changes, the beats by `step_count_corrupted`. -/
theorem corruptedIsNeverStored : Obligations.CorruptedIsNeverStored :=
  fun _ _ hcorr h => ⟨(step_change h).corr_ne_corrupted hcorr, step_count_corrupted hcorr h⟩

end Sys2Proof.Machine
end

