-- ==== Sys2Proof/Proofs/PowerOn.lean ====
section
/-! PROOFS. Power-on reset, between commands and during one (70_reset_and_hazards.md R105). -/

namespace Sys2Proof.Machine

/-- Settles O12: the move is `State.powerOn`. -/
theorem powerOnResetBetweenCommands : Obligations.PowerOnResetBetweenCommands := by
  intro s rest hport
  simp only [step, nextMove, hport, hostMove]
  rfl

/-- A step whose oldest move abandons a command, when so many beats can have transferred (R105). -/
theorem step_powerOnResetDuring {s : State} {sent : Transaction} {n : Nat} {rest : List HostMove}
    (hport : s.port = .powerOnResetDuring sent n :: rest) (hstart : isTransactionStart sent = true)
    (hn : n ≤ (digestBeatsOut sent { s with port := rest }).length) :
    step s = .next { State.powerOn { s with port := rest } with
      trace := s.trace ++ sent.cmdBeats.map .cmd ++ sent.data.map .din ++
        (digestBeatsOut sent { s with port := rest }).take n } := by
  simp only [step, nextMove, hport, hostMove, powerOnDuring]
  exact if_pos ⟨hstart, hn⟩

@[simp] theorem digestBeatsOf_append (as bs : List Beat) :
    digestBeatsOf (as ++ bs) = digestBeatsOf as ++ digestBeatsOf bs := List.filter_append as bs
@[simp] theorem digestBeatsOf_map_cmd (ws : List Word) : digestBeatsOf (ws.map .cmd) = [] := by
  simp [digestBeatsOf]
@[simp] theorem digestBeatsOf_map_dout (out : List Byte) : digestBeatsOf (out.map .dout) = out.map .dout := by
  simp [digestBeatsOf, List.filter_eq_self]
@[simp] theorem digestBeatsOf_rsp (st : Status) : digestBeatsOf [.rsp st] = [] := rfl

/-- The digest beats of a RESULT without a stored error (R76, R87). -/
theorem digestBeatsOut_result {s : State} (hcorr : s.ctx.corr = .none) :
    digestBeatsOut ⟨encode (.result true), []⟩ s =
      (digest (if s.ctx.fin then s.ctx.h else s.ctx.finalize.h)).map .dout := by
  have hrun := (runTransaction_instr (t := ⟨encode (.result true), []⟩) s (decode_encode (.result true)) rfl).trans
    (exec_result_accepts (s := s.receive _) hcorr)
  rw [digestBeatsOut, hrun]
  cases hfin : s.ctx.fin <;> simp [hfin]

/-- Settles O13: before the first digest byte nothing but the sent beats has transferred; a RESULT puts out the first
`n` of the beats of `digestBeatsOut_result`. -/
theorem powerOnResetAbandonsTheCommand : Obligations.PowerOnResetAbandonsTheCommand := by
  refine ⟨fun s sent rest hport hstart => ?_, fun s n rest hport hcorr hn => ?_⟩
  · rw [step_powerOnResetDuring hport hstart (Nat.zero_le _), List.take_zero, List.append_nil]
    rfl
  · have hbeats : encode (.result true) = [0x00000006] := rfl
    have hdigest := digestBeatsOut_result (s := { s with port := rest }) hcorr
    rw [step_powerOnResetDuring hport rfl (by simpa [hdigest] using hn), hdigest, ← List.map_take]
    simp [hbeats]

end Sys2Proof.Machine
end

