-- ==== Sys2Proof/Proofs/InputFrame.lean ====
section
/-! PROOFS. What INPUT leaves unchanged (41_input.md R59, R60; 10_state.md R19, R24). -/

namespace Sys2Proof.Machine

/-- A BUF byte that no absorbed byte is written to keeps its value (R60). -/
theorem Context.getElem_absorbAll_buf_of_ne (c : Context) {bs : List Byte} {j : Nat} (hj : j < 64)
    (hne : ∀ k, k < bs.length → (c.idx.val + k) % 64 ≠ j) : (c.absorbAll bs).buf[j] = c.buf[j] := by
  induction bs generalizing c with
  | nil => rfl
  | cons b bs ih =>
    rw [List.length_cons] at hne
    have hfirst : c.idx.val ≠ j := by
      simpa [Nat.mod_eq_of_lt c.idx.isLt] using hne 0 (Nat.succ_pos _)
    have hrest : ∀ k, k < bs.length → ((c.absorb b).idx.val + k) % 64 ≠ j := fun k hk => by
      rw [absorb_idx, Nat.mod_add_mod, Nat.add_assoc, Nat.add_comm 1 k]
      exact hne (k + 1) (Nat.succ_lt_succ hk)
    rw [absorbAll_cons, ih _ hrest]
    simp [hfirst]

/-- The beats of an INPUT: its data phase and its status (R45). -/
theorem execInput_trace {bufp : Bool} {len : Word} {s t : State} (h : execInput bufp len s = .next t) :
    ∃ st, t.trace = s.trace ++ (if bufp then s.din.map .din else []) ++ [.rsp st] := by
  obtain ⟨-, ⟨-, rfl⟩ | ⟨-, rfl, rfl⟩ | ⟨-, rfl, -, rfl⟩ | ⟨-, rfl, -, e, -, rfl⟩ | ⟨-, rfl, -, -, rfl⟩⟩ :=
    execInput_next h
  · exact ⟨.ok, by cases bufp <;> simp⟩
  · exact ⟨.nullArgument, by simp⟩
  · exact ⟨.stateError, rfl⟩
  · exact ⟨e, rfl⟩
  · exact ⟨.ok, rfl⟩

/-- INPUT leaves the host's later moves. -/
theorem execInput_port {bufp : Bool} {len : Word} {s t : State} (h : execInput bufp len s = .next t) :
    t.port = s.port := by
  obtain ⟨-, ⟨-, rfl⟩ | ⟨-, -, rfl⟩ | ⟨-, -, -, rfl⟩ | ⟨-, -, -, e, -, rfl⟩ | ⟨-, -, -, -, rfl⟩⟩ := execInput_next h
  · cases bufp <;> rfl
  all_goals rfl

/-- Settles O16: only an INPUT that absorbs its data phase writes H, BUF, IDX or BITLEN (`execInput_registers`), and
there the bytes absorbed bound what is written. -/
theorem inputFrame : Obligations.InputFrame := by
  intro bufp len s t h
  refine ⟨execInput_port h, execInput_fin h, (exec_change h).lenWidth, fun hroom => ?_, fun j hj hne => ?_,
    fun herror => ?_, fun hno => ?_, execInput_trace h⟩
  · obtain ⟨hh, -⟩ | ⟨-, -, -, hframed, hctx⟩ := execInput_registers h
    · exact hh
    · rw [hctx, s.ctx.absorbAll_h_of_lt (hframed ▸ hroom)]
  · obtain ⟨-, hbuf, -⟩ | ⟨-, -, -, hframed, hctx⟩ := execInput_registers h
    · simp only [hbuf]
    · simp only [hctx]
      exact s.ctx.getElem_absorbAll_buf_of_ne hj (hframed ▸ hne)
  · obtain hkept | ⟨hbufp, hfin, hcorr, -, -⟩ := execInput_registers h
    · exact hkept
    · simp [hbufp, hfin, hcorr] at herror
  · by_contra hne
    obtain ⟨-, hfin, hlen, hbufp⟩ := execInput_corr h hne
    exact hno ⟨hlen, hbufp, hfin⟩

end Sys2Proof.Machine
end

