-- ==== Sys2Proof/Proofs/PaddedMessage.lean ====
section
/-! PROOFS. Absorbing and finalizing hashes the padded message (43_finalization.md R86), at either LEN_WIDTH
(00_scope.md R5). -/

namespace Sys2Proof.Machine

/-! ### Hashing whole blocks -/

/-- H after the first `k` blocks of a byte sequence. -/
def hashFirst (bs : List Byte) (k : Nat) : Vector Word 5 :=
  (List.range k).foldl (fun h i => compress h (blockAt bs i)) initialHash

theorem hashBlocks_eq_hashFirst (bs : List Byte) : hashBlocks bs = hashFirst bs (bs.length / 64) := by
  unfold hashBlocks hashFirst
  rfl

@[simp] theorem hashFirst_zero (bs : List Byte) : hashFirst bs 0 = initialHash := by
  unfold hashFirst
  rfl

theorem hashFirst_succ (bs : List Byte) (k : Nat) :
    hashFirst bs (k + 1) = compress (hashFirst bs k) (blockAt bs k) := by
  rw [hashFirst, List.range_succ, List.foldl_append]
  rfl

theorem getElem_blockAt (bs : List Byte) (i : Nat) {j : Nat} (hj : j < 64) :
    (blockAt bs i)[j] = bs.getD (64 * i + j) 0#8 := by
  simp [blockAt]

/-- A whole block of a sequence stays when bytes are appended. -/
theorem blockAt_append {as : List Byte} (bs : List Byte) {i : Nat} (hi : 64 * (i + 1) ≤ as.length) :
    blockAt (as ++ bs) i = blockAt as i := by
  refine Vector.ext fun j hj => ?_
  rw [getElem_blockAt _ _ hj, getElem_blockAt _ _ hj, List.getD_append _ _ _ _ (by omega)]

theorem hashFirst_append {as : List Byte} (bs : List Byte) {k : Nat} (hk : 64 * k ≤ as.length) :
    hashFirst (as ++ bs) k = hashFirst as k := by
  induction k with
  | zero => simp
  | succ k ih => rw [hashFirst_succ, hashFirst_succ, ih (by omega), blockAt_append bs hk]

/-- The whole blocks of a message, whatever comes after it. -/
theorem hashFirst_append_eq_hashBlocks (m bs : List Byte) : hashFirst (m ++ bs) (m.length / 64) = hashBlocks m := by
  rw [hashFirst_append _ (Nat.mul_div_le _ _), hashBlocks_eq_hashFirst]

/-! ### The context after a message -/

/-- `c` holds the message `m`: its whole blocks are in H and the bytes after them in BUF[0..IDX-1] (R14, R61). -/
structure Context.Holds (c : Context) (m : List Byte) : Prop where
  idx : c.idx.val = m.length % 64
  h   : c.h = hashBlocks m
  buf : ∀ (j : Nat) (hj : j < 64), j < c.idx.val → c.buf[j] = m.getD (64 * (m.length / 64) + j) 0#8

/-- The byte that is absorbed comes after the bytes BUF holds (R60). -/
theorem Context.Holds.getElem_set {c : Context} {m : List Byte} (hm : c.Holds m) (b : Byte) {j : Nat} (hj : j < 64)
    (hle : j ≤ c.idx.val) : (c.buf.set c.idx.val b)[j] = (m ++ [b]).getD (64 * (m.length / 64) + j) 0#8 := by
  obtain ⟨hidx, -, hbuf⟩ := hm
  rcases hle.lt_or_eq with hlt | rfl
  · rw [Vector.getElem_set_ne _ _ hlt.ne', hbuf j hj hlt, List.getD_append _ _ _ _ (by omega)]
  · have hplace : 64 * (m.length / 64) + c.idx.val = m.length := by omega
    simp [hplace]

/-- One more byte. When it fills the block, the block is the message's next one. -/
theorem Context.Holds.absorb {c : Context} {m : List Byte} (hm : c.Holds m) (b : Byte) :
    (c.absorb b).Holds (m ++ [b]) := by
  have hold := hm.idx
  have hlen : (m ++ [b]).length = m.length + 1 := List.length_append
  have hidx : (c.absorb b).idx.val = (m ++ [b]).length % 64 := by
    rw [absorb_idx, hold, Nat.mod_add_mod, hlen]
  by_cases hlast : c.idx.val = 63
  · have hblock : c.buf.set c.idx.val b = blockAt (m ++ [b]) (m.length / 64) := Vector.ext fun j hj => by
      rw [hm.getElem_set b hj (by omega), getElem_blockAt _ _ hj]
    have hdiv : (m ++ [b]).length / 64 = m.length / 64 + 1 := by omega
    have hzero : (c.absorb b).idx.val = 0 := by rw [absorb_idx, hlast]
    refine ⟨hidx, ?_, fun j hj hlt => by omega⟩
    rw [absorb_h, if_pos (Fin.ext hlast), hblock, hm.h, hashBlocks_eq_hashFirst (m ++ [b]), hdiv, hashFirst_succ,
      hashFirst_append_eq_hashBlocks]
  · obtain ⟨hh, hnext⟩ := c.absorb_of_idx_ne b hlast
    have hdiv : (m ++ [b]).length / 64 = m.length / 64 := by omega
    refine ⟨hidx, ?_, fun j hj hlt => ?_⟩
    · rw [hh, hm.h, hashBlocks_eq_hashFirst (m ++ [b]), hdiv, hashFirst_append_eq_hashBlocks]
    · simp only [absorb_buf, hdiv]
      exact hm.getElem_set b hj (by omega)

theorem Context.init_absorbAll_holds (w : LenWidth) (m : List Byte) : ((Context.init w).absorbAll m).Holds m := by
  induction m using List.reverseRecOn with
  | nil => exact ⟨rfl, rfl, nofun⟩
  | append_singleton m b ih => rw [absorbAll_append]; exact ih.absorb b

/-- Below the ceiling the length field is the message's length in bits (R83, R111). -/
theorem toField_init_absorbAll {w : LenWidth} {m : List Byte} (hceiling : m.length < w.ceiling) :
    ((Context.init w).absorbAll m).bitlen.toField = BitVec.ofNat 64 (8 * m.length) := by
  rw [← BitVec.toNat_inj, BitLen.toNat_toField, Context.absorbAll_bitlen, Context.init_bitlen, BitLen.toNat_zero,
    BitLen.lenWidth_zero, BitVec.toNat_ofNat, Nat.zero_add]
  cases w with
  | w32 => simp only [LenWidth.ceiling, LenWidth.bits] at *; omega
  | w64 => rfl

/-! ### The padded message -/

/-- How many zero bytes the padded message has (R86). -/
def zeroCount (m : List Byte) : Nat := (119 - m.length % 64) % 64

/-- What follows the message, before the length field. -/
theorem padMessage_eq (m : List Byte) : padMessage m =
    m ++ (0x80#8 :: (List.replicate (zeroCount m) 0#8 ++ bytes64 (BitVec.ofNat 64 (8 * m.length)))) := by
  simp [padMessage, zeroCount]

theorem length_padMessage (m : List Byte) : (padMessage m).length = m.length + 1 + zeroCount m + 8 := by
  simp [padMessage_eq]; omega

/-- Where the length field starts: in the block of the marker, or in the next one (R79, R86). -/
theorem zeroCount_of_le {m : List Byte} (hroom : m.length % 64 ≤ 55) :
    m.length + 1 + zeroCount m = 64 * (m.length / 64) + 56 := by
  unfold zeroCount; omega

theorem zeroCount_of_gt {m : List Byte} (hroom : 56 ≤ m.length % 64) :
    m.length + 1 + zeroCount m = 64 * (m.length / 64 + 1) + 56 := by
  unfold zeroCount; omega

/-- The bytes of the padded message (R86). -/
theorem getD_padMessage (m : List Byte) (i : Nat) : (padMessage m).getD i 0#8 =
    if i < m.length then m.getD i 0#8 else if i = m.length then 0x80#8
    else if i < m.length + 1 + zeroCount m then 0x00#8
    else (bytes64 (BitVec.ofNat 64 (8 * m.length))).getD (i - (m.length + 1 + zeroCount m)) 0#8 := by
  rw [padMessage_eq]
  by_cases hmsg : i < m.length
  · rw [if_pos hmsg, List.getD_append _ _ _ _ hmsg]
  rw [if_neg hmsg, List.getD_append_right _ _ _ _ (not_lt.mp hmsg)]
  by_cases hmark : i = m.length
  · simp [hmark]
  have hafter : i - m.length = (i - (m.length + 1)) + 1 := by omega
  rw [if_neg hmark, hafter, List.getD_cons_succ]
  by_cases hzero : i < m.length + 1 + zeroCount m
  · rw [if_pos hzero, List.getD_append _ _ _ _ (by simp; omega), List.getD_replicate _ (by omega)]
  · rw [if_neg hzero, List.getD_append_right _ _ _ _ (by simp; omega), List.length_replicate, Nat.sub_sub]

/-- The padded message from the last block of the message on, by what the context holds. -/
theorem Context.Holds.getD_padMessage {c : Context} {m : List Byte} (hm : c.Holds m) {j : Nat} (hj : j < 64) :
    (padMessage m).getD (64 * (m.length / 64) + j) 0#8 =
      if j < c.idx.val then c.buf[j] else if j = c.idx.val then 0x80#8
      else if 64 * (m.length / 64) + j < m.length + 1 + zeroCount m then 0x00#8
      else (bytes64 (BitVec.ofNat 64 (8 * m.length))).getD
        (64 * (m.length / 64) + j - (m.length + 1 + zeroCount m)) 0#8 := by
  have hidx := hm.idx
  have hmsg : 64 * (m.length / 64) + j < m.length ↔ j < c.idx.val := by omega
  have hmark : 64 * (m.length / 64) + j = m.length ↔ j = c.idx.val := by omega
  simp only [Machine.getD_padMessage, hmsg, hmark]
  by_cases hlt : j < c.idx.val
  · rw [if_pos hlt, if_pos hlt, hm.buf j hj hlt]
  · rw [if_neg hlt, if_neg hlt]

/-! ### FINALIZE -/

/-- With room for the length field, FINALIZE compresses the one block that follows the message's whole ones (R79). -/
theorem Context.Holds.finalize_h_of_le {c : Context} {m : List Byte} (hm : c.Holds m)
    (hfield : c.bitlen.toField = BitVec.ofNat 64 (8 * m.length)) (hroom : m.length % 64 ≤ 55) :
    c.finalize.h = hashBlocks (padMessage m) := by
  have hidx : c.idx.val ≤ 55 := hm.idx ▸ hroom
  have hstart := zeroCount_of_le hroom
  have hdiv : (padMessage m).length / 64 = m.length / 64 + 1 := by rw [length_padMessage]; omega
  have hblock : (c.markEnd.zeroFill (c.idx.val + 1) 56).writeLength.buf = blockAt (padMessage m) (m.length / 64) := by
    refine Vector.ext fun j hj => ?_
    rw [getElem_markEnd_writeLength hidx hj, getElem_blockAt _ _ hj, hm.getD_padMessage hj, hfield, hstart,
      Nat.add_sub_add_left]
    simp only [Nat.add_lt_add_iff_left]
  rw [finalize_h_of_idx_le hidx, hblock, hm.h, hashBlocks_eq_hashFirst (padMessage m), hdiv, hashFirst_succ,
    padMessage_eq, hashFirst_append_eq_hashBlocks]

/-- Without room for it, FINALIZE compresses two blocks, the second of zeros and the length field (R79, R82). -/
theorem Context.Holds.finalize_h_of_gt {c : Context} {m : List Byte} (hm : c.Holds m)
    (hfield : c.bitlen.toField = BitVec.ofNat 64 (8 * m.length)) (hroom : 56 ≤ m.length % 64) :
    c.finalize.h = hashBlocks (padMessage m) := by
  have hidx : 56 ≤ c.idx.val := hm.idx ▸ hroom
  have hstart := zeroCount_of_gt hroom
  have hdiv : (padMessage m).length / 64 = m.length / 64 + 1 + 1 := by rw [length_padMessage]; omega
  have hfirst : (c.markEnd.zeroFill (c.idx.val + 1) 64).buf = blockAt (padMessage m) (m.length / 64) := by
    refine Vector.ext fun j hj => ?_
    have hzero : 64 * (m.length / 64) + j < 64 * (m.length / 64 + 1) + 56 := by omega
    rw [getElem_markEnd_zeroFill _ _ hj, getElem_blockAt _ _ hj, hm.getD_padMessage hj, hstart, if_pos hj, if_pos hzero]
  have hsecond : ((c.markEnd.zeroFill (c.idx.val + 1) 64).blockDone.zeroFill 0 56).writeLength.buf =
      blockAt (padMessage m) (m.length / 64 + 1) := by
    refine Vector.ext fun j hj => ?_
    have hmsg : ¬64 * (m.length / 64 + 1) + j < m.length := by omega
    have hmark : ¬64 * (m.length / 64 + 1) + j = m.length := by omega
    rw [getElem_zeroFill_writeLength _ hj, getElem_blockAt _ _ hj, Machine.getD_padMessage, if_neg hmsg, if_neg hmark,
      hstart, Nat.add_sub_add_left]
    simp only [Nat.add_lt_add_iff_left, blockDone_bitlen, zeroFill_bitlen, markEnd_bitlen, hfield]
  rw [finalize_h_of_le_idx hidx, hfirst, hsecond, hm.h, hashBlocks_eq_hashFirst (padMessage m), hdiv, hashFirst_succ,
    hashFirst_succ, ← hashFirst_append_eq_hashBlocks, ← padMessage_eq]

/-- FINALIZE after a message below the ceiling (R86). -/
theorem finalize_h_init_absorbAll {w : LenWidth} {m : List Byte} (hceiling : m.length < w.ceiling) :
    ((Context.init w).absorbAll m).finalize.h = hashBlocks (padMessage m) := by
  have hholds := Context.init_absorbAll_holds w m
  have hfield := toField_init_absorbAll hceiling
  rcases Nat.lt_or_ge (m.length % 64) 56 with hroom | hroom
  · exact hholds.finalize_h_of_le hfield (Nat.le_of_lt_succ hroom)
  · exact hholds.finalize_h_of_gt hfield hroom

/-- Settles O32: the hash is `finalize_h_init_absorbAll`; the length field ends the last block. -/
theorem finalizeHashesThePaddedMessage : Obligations.FinalizeHashesThePaddedMessage := by
  refine fun w m hceiling => ⟨finalize_h_init_absorbAll hceiling, ?_⟩
  rw [length_padMessage]
  split
  · next hroom => rw [zeroCount_of_le hroom]; omega
  · next hroom => rw [zeroCount_of_gt (by omega)]; omega

/-! ### Both widths of BITLEN -/

/-- ABSORB reads BITLEN for BITLEN alone, so H, BUF and IDX go on alike at both widths (R60). -/
theorem Context.absorbAll_congr {c d : Context} (hh : c.h = d.h) (hbuf : c.buf = d.buf) (hidx : c.idx = d.idx)
    (bs : List Byte) : (c.absorbAll bs).h = (d.absorbAll bs).h ∧ (c.absorbAll bs).buf = (d.absorbAll bs).buf ∧
      (c.absorbAll bs).idx = (d.absorbAll bs).idx := by
  induction bs generalizing c d with
  | nil => exact ⟨hh, hbuf, hidx⟩
  | cons b bs ih =>
    refine ih ?_ ?_ (Fin.ext ?_)
    · simp only [absorb_h, hh, hbuf, hidx]
    · simp only [absorb_buf, hbuf, hidx]
    · rw [absorb_idx, absorb_idx, hidx]

/-- Settles O36: BITLEN counts the same bits below 2^32, and both finalized contexts hold the hash of
`finalize_h_init_absorbAll`. -/
theorem bothLenWidthsAgreeBelowTheCeiling : Obligations.BothLenWidthsAgreeBelowTheCeiling := by
  intro m hlen c d
  obtain ⟨hh, hbuf, hidx⟩ := Context.absorbAll_congr (c := .init .w32) (d := .init .w64) rfl rfl rfl m
  have h64 : m.length < LenWidth.w64.ceiling := hlen.trans (by decide)
  refine ⟨hh, hbuf, hidx, ?_, (finalize_h_init_absorbAll hlen).trans (finalize_h_init_absorbAll h64).symm⟩
  rw [← BitLen.toNat_toField, ← BitLen.toNat_toField, toField_init_absorbAll hlen, toField_init_absorbAll h64]

end Sys2Proof.Machine
end

