-- ==== Sys2Proof/Proofs/Hashing.lean ====
section
/-! PROOFS. The headline: RESET, a message in any pieces and RESULT put out the message's digest (00_scope.md R1,
41_input.md R63, 43_finalization.md R76, R86, R87). -/

namespace Sys2Proof.Machine

/-! ### What a host observes of the beats -/

@[simp] theorem observed_append (as bs : List Beat) : observed (as ++ bs) = observed as ++ observed bs :=
  List.filter_append as bs
@[simp] theorem observed_map_cmd (ws : List Word) : observed (ws.map .cmd) = [] := by simp [observed]
@[simp] theorem observed_map_din (bs : List Byte) : observed (bs.map .din) = [] := by simp [observed]
@[simp] theorem observed_map_dout (bs : List Byte) : observed (bs.map .dout) = bs.map .dout := by
  simp [observed, List.filter_eq_self]
@[simp] theorem observed_rsp (st : Status) : observed [.rsp st] = [.rsp st] := rfl

/-! ### The steps of the run -/

theorem assembleAll_append (as bs : List AsmLine) : assembleAll (as ++ bs) = assembleAll as ++ assembleAll bs := by
  simp [assembleAll]

/-- A step whose oldest move is an instruction with its data phase (R36, R45). -/
theorem step_encode {s : State} {i : Instr} {data : List Byte} {rest : List HostMove}
    (hport : s.port = .transaction ⟨encode i, data⟩ :: rest) (hframed : data.length = dataBeats i) :
    step s = exec i (State.receive ⟨encode i, data⟩ { s with port := rest }) := by
  rw [step_transaction hport]
  exact runTransaction_instr _ (decode_encode i) hframed

theorem step_reset_observed {s : State} {rest : List HostMove}
    (hport : s.port = .transaction ⟨encode (.reset false), []⟩ :: rest) :
    ∃ t, step s = .next t ∧ t.port = rest ∧ t.ctx = .init s.ctx.bitlen.lenWidth ∧
      observed t.trace = observed s.trace ++ [Beat.rsp .ok] :=
  ⟨_, (step_encode hport rfl).trans (exec_reset _ _), rfl, rfl, by simp⟩

theorem step_input_observed {s : State} {bytes : List Byte} {rest : List HostMove}
    (hport : s.port = .transaction (inputTransaction bytes) :: rest) (hlen : bytes.length < 2 ^ 32)
    (hfin : s.ctx.fin = false) (hcorr : s.ctx.corr = .none) :
    ∃ t, step s = .next t ∧ t.port = rest ∧ t.ctx = s.ctx.absorbAll bytes ∧
      observed t.trace = observed s.trace ++ [Beat.rsp .ok] := by
  have hframed : bytes.length = (BitVec.ofNat 32 bytes.length).toNat := by
    rw [BitVec.toNat_ofNat, Nat.mod_eq_of_lt hlen]
  exact ⟨_, (step_encode hport hframed).trans (exec_input_accepts hframed hfin hcorr), rfl, rfl, by simp⟩

theorem step_result_observed {s : State} {rest : List HostMove}
    (hport : s.port = .transaction ⟨encode (.result true), []⟩ :: rest)
    (hfin : s.ctx.fin = false) (hcorr : s.ctx.corr = .none) :
    ∃ t, step s = .next t ∧ t.port = rest ∧
      observed t.trace = observed s.trace ++ (digest s.ctx.finalize.h).map .dout ++ [Beat.rsp .ok] :=
  ⟨_, (step_encode hport rfl).trans (exec_result_finalizes hfin hcorr), rfl, by simp⟩

/-- A run of INPUTs before other moves returns OK for each of them. -/
theorem runsTo_inputs_observed {s : State} {ps : List (List Byte)} {rest : List HostMove}
    (hport : s.port = inputMoves ps ++ rest) (hlen : ∀ p ∈ ps, p.length < 2 ^ 32) (hfin : s.ctx.fin = false)
    (hcorr : s.ctx.corr = .none) :
    ∃ t, RunsTo s ps.length t ∧ t.port = rest ∧ t.ctx = s.ctx.absorbAll ps.flatten ∧
      observed t.trace = observed s.trace ++ List.replicate ps.length (Beat.rsp .ok) := by
  induction ps generalizing s with
  | nil => exact ⟨s, rfl, hport, rfl, (List.append_nil _).symm⟩
  | cons p ps ih =>
    obtain ⟨hp, hps⟩ := List.forall_mem_cons.mp hlen
    obtain ⟨m, hstep, hmport, hmctx, hmtrace⟩ := step_input_observed hport hp hfin hcorr
    obtain ⟨t, hrun, htport, htctx, httrace⟩ := ih hmport hps (by simp [hmctx, hfin]) (by simp [hmctx, hcorr])
    refine ⟨t, (runSteps_succ ps.length hstep).trans hrun, htport, ?_, ?_⟩
    · rw [htctx, hmctx, List.flatten_cons, Context.absorbAll_append]
    · rw [httrace, hmtrace, List.append_assoc]
      rfl

/-- Settles O35: RESET makes the initial context, the INPUTs absorb the message, and RESULT puts out the digest of what
`finalize_h_init_absorbAll` says is in H. -/
theorem hashingAMessageEmitsItsDigest : Obligations.HashingAMessageEmitsItsDigest := by
  intro s ps hlen hceiling
  have hport : assembleAll ([AsmLine.reset] ++ ps.map AsmLine.input ++ [AsmLine.result]) =
      HostMove.transaction ⟨encode (.reset false), []⟩ ::
        (inputMoves ps ++ [HostMove.transaction ⟨encode (.result true), []⟩]) := by
    rw [assembleAll_append, assembleAll_append]
    rfl
  obtain ⟨r, hreset, hrport, hrctx, hrtrace⟩ := step_reset_observed (s := { s with port := _ }) hport
  obtain ⟨m, hinputs, hmport, hmctx, hmtrace⟩ :=
    runsTo_inputs_observed hrport hlen (by simp [hrctx]) (by simp [hrctx])
  obtain ⟨t, hresult, htport, httrace⟩ :=
    step_result_observed hmport (by simp [hmctx, hrctx]) (by simp [hmctx, hrctx])
  refine ⟨t, ?_, htport, ?_⟩
  · calc runSteps (ps.length + 2) _ = runSteps (ps.length + 1) r := runSteps_succ (ps.length + 1) hreset
      _ = runSteps 1 m := runSteps_add ps.length 1 hinputs
      _ = .next t := runSteps_succ 0 hresult
  · rw [httrace, hmtrace, hrtrace, hmctx, hrctx, finalize_h_init_absorbAll hceiling, messageDigest,
      List.append_assoc (observed _) [Beat.rsp .ok], List.replicate_succ]
    rfl

end Sys2Proof.Machine
end

