-- ==== Sys2Proof/Proofs/StaleBytes.lean ====
section
/-! PROOFS. Stale BUF bytes are not observable: states that differ in them alone answer alike to every host move
(10_state.md R14, R23). -/

namespace Sys2Proof.Machine

/-! ### Contexts -/

theorem Context.StaleEq.refl (c : Context) : c.StaleEq c := ⟨rfl, rfl, rfl, rfl, rfl, fun _ _ _ => rfl⟩

theorem Context.StaleEq.storeStateError {c d : Context} (h : c.StaleEq d) :
    c.storeStateError.StaleEq d.storeStateError :=
  ⟨h.h, h.idx, h.bitlen, h.fin, rfl, h.buf⟩

/-- The absorbed byte extends the bytes that are equal. -/
theorem Context.StaleEq.getElem_set {c d : Context} (h : c.StaleEq d) (b : Byte) {j : Nat} (hj : j < 64)
    (hle : j ≤ c.idx.val) : (c.buf.set c.idx.val b)[j] = (d.buf.set d.idx.val b)[j] := by
  rw [Vector.getElem_set, Vector.getElem_set, h.idx]
  split
  · rfl
  · next hne => exact h.buf j hj (lt_of_le_of_ne hle fun heq => hne (h.idx ▸ heq.symm))

/-- ABSORB reads BUF only when the block is full, and then no byte of it is stale (R14, R60). -/
theorem Context.StaleEq.absorb {c d : Context} (h : c.StaleEq d) (b : Byte) : (c.absorb b).StaleEq (d.absorb b) where
  h := by
    by_cases hlast : c.idx = 63
    · have hblock : c.buf.set c.idx.val b = d.buf.set d.idx.val b :=
        Vector.ext fun j hj => h.getElem_set b hj (by rw [hlast]; exact Nat.le_of_lt_succ hj)
      rw [absorb_h, absorb_h, if_pos hlast, if_pos (h.idx ▸ hlast), h.h, hblock]
    · rw [absorb_h, absorb_h, if_neg hlast, if_neg (h.idx ▸ hlast), h.h]
  idx := Fin.ext (by rw [absorb_idx, absorb_idx, h.idx])
  bitlen := by simp [h.bitlen]
  fin := by simp [h.fin]
  corr := by simp [h.corr]
  buf j hj hlt := by
    have hle : j ≤ c.idx.val := by rw [absorb_idx] at hlt; omega
    simpa using h.getElem_set b hj hle

theorem Context.StaleEq.absorbAll {c d : Context} (h : c.StaleEq d) (bs : List Byte) :
    (c.absorbAll bs).StaleEq (d.absorbAll bs) := by
  induction bs generalizing c d with
  | nil => exact h
  | cons b bs ih => exact ih (h.absorb b)

/-- The marker and the zeros overwrite every stale byte of the block (R78, R80). -/
theorem Context.StaleEq.markEnd_zeroFill_buf {c d : Context} (h : c.StaleEq d) :
    (c.markEnd.zeroFill (c.idx.val + 1) 64).buf = (d.markEnd.zeroFill (d.idx.val + 1) 64).buf :=
  Vector.ext fun j hj => by
    rw [getElem_markEnd_zeroFill _ _ hj, getElem_markEnd_zeroFill _ _ hj, ← h.idx]
    by_cases hlt : j < c.idx.val
    · rw [if_pos hlt, if_pos hlt, h.buf j hj hlt]
    · rw [if_neg hlt, if_neg hlt, if_pos hj, if_pos hj]

/-- The marker, the zeros and the length field overwrite every stale byte of the block (R78, R82, R83). -/
theorem Context.StaleEq.markEnd_writeLength_buf {c d : Context} (h : c.StaleEq d) (hidx : c.idx.val ≤ 55) :
    (c.markEnd.zeroFill (c.idx.val + 1) 56).writeLength.buf =
      (d.markEnd.zeroFill (d.idx.val + 1) 56).writeLength.buf :=
  Vector.ext fun j hj => by
    rw [getElem_markEnd_writeLength hidx hj, getElem_markEnd_writeLength (h.idx ▸ hidx) hj, ← h.idx, h.bitlen]
    by_cases hlt : j < c.idx.val
    · rw [if_pos hlt, if_pos hlt, h.buf j hj hlt]
    · rw [if_neg hlt, if_neg hlt]

/-- FINALIZE compresses no stale byte, so it leaves equal contexts (R78 to R85). -/
theorem Context.StaleEq.finalize_eq {c d : Context} (h : c.StaleEq d) : c.finalize = d.finalize := by
  refine Context.ext_fields ?_ (by simp) (by simp) (by simp [h.bitlen]) (by simp) (by simp [h.corr])
  rcases Nat.lt_or_ge c.idx.val 56 with hidx | hidx
  · have hle : c.idx.val ≤ 55 := Nat.le_of_lt_succ hidx
    rw [finalize_h_of_idx_le hle, finalize_h_of_idx_le (h.idx ▸ hle), h.h, h.markEnd_writeLength_buf hle]
  · have hsecond : ((c.markEnd.zeroFill (c.idx.val + 1) 64).blockDone.zeroFill 0 56).writeLength.buf =
        ((d.markEnd.zeroFill (d.idx.val + 1) 64).blockDone.zeroFill 0 56).writeLength.buf :=
      Vector.ext fun j hj => by
        rw [getElem_zeroFill_writeLength _ hj, getElem_zeroFill_writeLength _ hj]
        simp [h.bitlen]
    rw [finalize_h_of_le_idx hidx, finalize_h_of_le_idx (h.idx ▸ hidx), h.h, h.markEnd_zeroFill_buf, hsecond]

/-! ### States -/

theorem State.StaleEq.complete {s t : State} (h : s.StaleEq t) (st : Status) :
    (s.complete st).StaleEq (t.complete st) :=
  ⟨h.ctx, rfl, h.port, h.din, by simp [h.trace]⟩

theorem State.StaleEq.receive {s t : State} (h : s.StaleEq t) (tr : Transaction) :
    (s.receive tr).StaleEq (t.receive tr) :=
  ⟨h.ctx, h.fsm, h.port, rfl, by simp [h.trace]⟩

theorem State.StaleEq.takeDataPhase {s t : State} (h : s.StaleEq t) : s.takeDataPhase.StaleEq t.takeDataPhase :=
  ⟨h.ctx, h.fsm, h.port, rfl, by simp [h.trace, h.din]⟩

theorem State.StaleEq.emitDigest {s t : State} (h : s.StaleEq t) : s.emitDigest.StaleEq t.emitDigest :=
  ⟨h.ctx, h.fsm, h.port, h.din, by simp [h.trace, h.ctx.h]⟩

theorem State.StaleEq.setCtx {s t : State} (h : s.StaleEq t) {c d : Context} (hctx : c.StaleEq d) :
    (s.setCtx c).StaleEq (t.setCtx d) :=
  ⟨hctx, h.fsm, h.port, h.din, h.trace⟩

theorem State.StaleEq.powerOn {s t : State} (h : s.StaleEq t) : s.powerOn.StaleEq t.powerOn :=
  ⟨by simpa [h.ctx.bitlen] using Context.StaleEq.refl _, rfl, h.port, rfl, h.trace⟩

/-! ### Outcomes -/

/-- Two outcomes that a host cannot tell apart: next states that differ in stale bytes only, or one refusal. -/
inductive OutcomeStaleEq : Host.Outcome State Fault Refusal → Host.Outcome State Fault Refusal → Prop where
  | next {s t : State} (h : s.StaleEq t) : OutcomeStaleEq (.next s) (.next t)
  | refused (r : Refusal) : OutcomeStaleEq (.refused r) (.refused r)

theorem execInput_staleEq (bufp : Bool) (len : Word) {s t : State} (h : s.StaleEq t) :
    OutcomeStaleEq (execInput bufp len s) (execInput bufp len t) := by
  have htaken : State.StaleEq (if bufp then s.takeDataPhase else s) (if bufp then t.takeDataPhase else t) := by
    cases bufp with
    | false => exact h
    | true => exact h.takeDataPhase
  simp only [execInput, ← h.din, ← h.ctx.fin, ← h.ctx.corr]
  split
  · exact .refused _
  split
  · exact .next (htaken.complete _)
  split
  · exact .next (htaken.complete _)
  split
  · exact .next ((htaken.setCtx h.ctx.storeStateError).complete _)
  split
  · exact .next (htaken.complete _)
  · exact .next ((htaken.setCtx (h.ctx.absorbAll _)).complete _)

/-- RESULT reads BUF to finalize alone, and there no stale byte counts (R76). -/
theorem exec_result_staleEq (bufp : Bool) {s t : State} (h : s.StaleEq t) :
    OutcomeStaleEq (exec (.result bufp) s) (exec (.result bufp) t) := by
  cases bufp with
  | false => exact .next (h.complete _)
  | true =>
    cases hstored : s.ctx.corr.stored with
    | some st =>
      rw [exec_result_failed hstored, exec_result_failed (h.ctx.corr ▸ hstored)]
      exact .next (h.complete st)
    | none =>
      have hnone := Corr.eq_none_of_stored hstored
      rw [exec_result_accepts hnone, exec_result_accepts (h.ctx.corr ▸ hnone), ← h.ctx.fin, ← h.ctx.finalize_eq]
      refine .next ((h.setCtx ?_).emitDigest.complete _)
      split
      · exact h.ctx
      · exact .refl _

theorem exec_staleEq (i : Instr) {s t : State} (h : s.StaleEq t) : OutcomeStaleEq (exec i s) (exec i t) := by
  cases i with
  | reset bufp =>
    rw [exec_reset, exec_reset, ← h.ctx.bitlen]
    exact .next ((h.setCtx (.refl _)).complete _)
  | input bufp len => exact execInput_staleEq bufp len h
  | result bufp => exact exec_result_staleEq bufp h

theorem runTransaction_staleEq (tr : Transaction) {s t : State} (h : s.StaleEq t) :
    OutcomeStaleEq (runTransaction tr s) (runTransaction tr t) := by
  unfold runTransaction
  split
  · split
    · exact exec_staleEq _ (h.receive tr)
    · exact .refused _
  · split
    · exact .next ((h.receive tr).takeDataPhase.complete _)
    · exact .refused _
  all_goals exact .refused _

theorem digestBeatsOut_staleEq (tr : Transaction) {s t : State} (h : s.StaleEq t) :
    digestBeatsOut tr s = digestBeatsOut tr t := by
  have hrun := runTransaction_staleEq tr h
  unfold digestBeatsOut
  generalize runTransaction tr s = o at hrun ⊢
  generalize runTransaction tr t = o' at hrun ⊢
  cases hrun with
  | next h' => simp only [h.trace, h'.trace]
  | refused r => rfl

theorem powerOnDuring_staleEq (sent : Transaction) (n : Nat) {s t : State} (h : s.StaleEq t) :
    OutcomeStaleEq (powerOnDuring sent n s) (powerOnDuring sent n t) := by
  unfold powerOnDuring
  rw [digestBeatsOut_staleEq sent h, h.trace]
  split
  · exact .next ⟨h.powerOn.ctx, rfl, h.port, rfl, rfl⟩
  · exact .refused _

theorem hostMove_staleEq (m : HostMove) {s t : State} (h : s.StaleEq t) :
    OutcomeStaleEq (hostMove m s) (hostMove m t) := by
  cases m with
  | transaction tr => exact runTransaction_staleEq tr h
  | powerOnReset => exact .next h.powerOn
  | powerOnResetDuring sent n => exact powerOnDuring_staleEq sent n h

theorem step_staleEq {s t : State} (h : s.StaleEq t) : OutcomeStaleEq (step s) (step t) := by
  unfold step nextMove
  rw [← h.port]
  split
  · exact .next h
  · exact hostMove_staleEq _ ⟨h.ctx, h.fsm, rfl, h.din, h.trace⟩

theorem runSteps_staleEq (k : Nat) {s t : State} (h : s.StaleEq t) :
    OutcomeStaleEq (runSteps k s) (runSteps k t) := by
  induction k generalizing s t with
  | zero => exact .next h
  | succ k ih =>
    have hstep := step_staleEq h
    unfold runSteps
    generalize step s = o at hstep ⊢
    generalize step t = o' at hstep ⊢
    cases hstep with
    | next h' => exact ih h'
    | refused r => exact .refused r

/-- Settles O46: the two runs have outcomes that cannot be told apart (`runSteps_staleEq`). -/
theorem staleBytesAreUnobservable : Obligations.StaleBytesAreUnobservable := by
  intro k s t h
  have hrun := runSteps_staleEq k h
  unfold RunsTo
  generalize runSteps k s = o at hrun ⊢
  generalize runSteps k t = o' at hrun ⊢
  cases hrun with
  | next h' => exact ⟨fun s' hs => ⟨_, rfl, Host.Outcome.next.inj hs ▸ h'⟩, nofun⟩
  | refused r => exact ⟨nofun, fun _ hr => hr⟩

end Sys2Proof.Machine
end

