-- ==== Sys2Proof/Proofs/Statuses.lean ====
section
/-! PROOFS. The status codes (60_exceptions.md R89, R91). -/

namespace Sys2Proof.Machine

/-- The status of a stored error has the code CORR holds (R18, R91). -/
theorem Corr.code_of_stored {c : Corr} {st : Status} (h : c.stored = some st) : st.code.toNat = c.bits.toNat := by
  cases c with
  | none => cases h
  | stateError => cases h; rfl
  | corrupted => cases h; rfl

theorem Status.code_le (st : Status) : st.code.toNat ≤ 4 := by
  cases st <;> decide

/-- Settles O37: the codes are those of the table, and a stored error's is `Corr.code_of_stored`. -/
theorem statusCodesAreAsTabled : Obligations.StatusCodesAreAsTabled :=
  ⟨rfl, rfl, rfl, rfl, rfl, rfl, rfl, rfl, Status.code_le, fun _ _ => Corr.code_of_stored⟩

end Sys2Proof.Machine
end

