-- ==== Sys2Proof/Proofs/Engines.lean ====
section
/-! PROOFS. The engines of a system do not touch each other (20_memory.md R42). -/

namespace Sys2Proof.Machine

/-- Settles O47: the step of engine `k` sets place `k` of the vector. -/
theorem instancesAreIndependent : Obligations.InstancesAreIndependent := by
  refine fun n k sys => ⟨fun s hstep => ?_, fun r hstep => ?_⟩
  · refine ⟨⟨sys.engines.set k.val s⟩, by rw [System.stepEngine, hstep], by simp, fun j hj => ?_⟩
    have hne : k.val ≠ j.val := fun h => hj (Fin.ext h.symm)
    simp [hne]
  · rw [System.stepEngine, hstep]

end Sys2Proof.Machine
end
